-- ==== Sys2Proof/Word.lean ====
section
/-! DEFINITION. The word and byte types of the block (00_scope.md R11, R12). -/

namespace Sys2Proof

/-- A 32-bit register value or instruction word. `u(v)` of R12 is `v.toNat`, `s(v)` is `v.toInt`, and `+`, `-`, `*`
are taken modulo `2^32`, as R12 takes them. -/
abbrev Word := BitVec 32

/-- An 8-bit memory byte or operand byte. -/
abbrev Byte := BitVec 8

end Sys2Proof
end

