-- ==== Sys2Proof/Config.lean ====
section
/-! DEFINITION. What an implementation of the block fixes: the open parameters of 00_scope.md R9 as one structure of
plain data, and the one free value of R10. A parameter has no value here: the reference values stand in
Decode.lean, and every statement about a state holds for every value of its `cfg`. -/

namespace Sys2Proof

/-- The mnemonics of 30_encoding.md R80. The numbering of the constructors means nothing; opcode bytes come from
`Config.opcodes`. -/
inductive Mnemonic where
  | add | sub | mul | and | or | xor | addi | subi | muli
  | andi | ori | xori | not | shl | shr | fadd | fsub | fmul
  | fdiv | seti | cmp | fcmp | cmpi | b | beq | bne | bgt
  | blt | bge | ble | bl | beql | bnel | bgtl | bltl | bgel
  | blel | blr | beqlr | bnelr | bgtlr | bltlr | bgelr | blelr | mflr
  | mtlr | ldb | ldh | ldw | stb | sth | stw | syscall
deriving DecidableEq, Repr

/-- The two extensions of R9 (`IMM8_EXT`, `LOAD_EXT`). -/
inductive Ext where
  | zero | sign
deriving DecidableEq, Repr

/-- `SHR_KIND` of R9. -/
inductive ShiftKind where
  | logical | arithmetic
deriving DecidableEq, Repr

/-- The compare flags GreaterThan, LessThan and Equal (10_state.md R28), held as three booleans as R29 allows. -/
structure Flags where
  gt : Bool
  lt : Bool
  eq : Bool
deriving DecidableEq, Repr

/-- `SYSK`: the byte value of each syscall kind (30_encoding.md R84, D26). -/
structure SysKinds where
  print : Byte
  iprint : Byte
  fprint : Byte
  qmb : Byte
  halt : Byte
deriving DecidableEq, Repr

/-- The five kind values, in the order of R84. -/
def SysKinds.all (k : SysKinds) : List Byte := [k.print, k.iprint, k.fprint, k.qmb, k.halt]

/-- The parameters the source leaves open (00_scope.md R9). `FLOAT_FMT` is the host's text format and has no place in
the block (D27). -/
structure Config where
  /-- `MEM_SIZE`, in bytes (D32). -/
  memSize : Nat
  /-- `OPC`, read backwards: the mnemonic whose opcode is `k` stands at index `k`. Its length is `OPCODE_COUNT`, and
  the conditional mnemonics in it are those of `CONDS` (R80 to R82; D2, D3, D5). -/
  opcodes : List Mnemonic
  /-- `SYSK` (D26). -/
  kinds : SysKinds
  /-- `IMM8_EXT` (D9). -/
  imm8Ext : Ext
  /-- `SHR_KIND` (D10). -/
  shrKind : ShiftKind
  /-- `CMP_SIGNED` (D12). -/
  cmpSigned : Bool
  /-- `FCMP_UNORDERED`, the flags after `FCMP` with a NaN (D14). -/
  fcmpUnordered : Flags
  /-- `LOAD_EXT` (D15). -/
  loadExt : Ext
  /-- `LINK_IF_NOT_TAKEN` (D20). -/
  linkIfNotTaken : Bool
  /-- `R0_INIT`, the reset value of `x[0]` (D30). -/
  r0Init : Word
  /-- `INIT_DATA`, the data region at reset as (address, byte) pairs; an address not listed holds zero (D31). -/
  initData : List Host.Cell
deriving DecidableEq, Repr

/-- What the spec asks of the parameters: `OPC` is a bijection from the live mnemonics onto `0 .. OPCODE_COUNT-1`, an
opcode fits its byte (R68, R80), and the five syscall kinds have different values (R84). -/
abbrev Config.wf (c : Config) : Prop :=
  c.opcodes.Nodup ∧ c.opcodes.length ≤ 256 ∧ c.kinds.all.Nodup

/-- DESIGN CHOICE (log 8). The draws of R10, one word per draw: nothing constrains it, so a claim proved about the
model holds whatever each draw gives. Safe. -/
opaque Config.draw : Nat → BitVec 32

end Sys2Proof
end

