-- ==== Sys2Proof/Syntax.lean ====
section
/-! DEFINITION. The instructions, one constructor per row of spec/opcode_table.json (30_encoding.md R80). -/

namespace Sys2Proof

/-- A decoded instruction: a mnemonic with its operand fields (R92). DEDUCED (log 17): register operands and the syscall
kind stay the raw operand bytes, since R88 and R89 check them when the instruction executes, and the fault records the
byte; unused bytes are dropped, since R87 ignores them. -/
inductive Instr where
  -- TripleReg, integer (R111 to R116)
  | add (rd ra rb : Byte)
  | sub (rd ra rb : Byte)
  | mul (rd ra rb : Byte)
  | and (rd ra rb : Byte)
  | or (rd ra rb : Byte)
  | xor (rd ra rb : Byte)
  -- DoubleReg8Imm, arithmetic and logic immediate (R117 to R122)
  | addi (rd ra imm : Byte)
  | subi (rd ra imm : Byte)
  | muli (rd ra imm : Byte)
  | andi (rd ra imm : Byte)
  | ori (rd ra imm : Byte)
  | xori (rd ra imm : Byte)
  -- DoubleReg (R123)
  | not (rd ra : Byte)
  -- DoubleReg8Imm, shifts by an 8-bit amount (R124, R125)
  | shl (rd ra amt : Byte)
  | shr (rd ra amt : Byte)
  -- TripleReg, float (R131 to R134)
  | fadd (rd ra rb : Byte)
  | fsub (rd ra rb : Byte)
  | fmul (rd ra rb : Byte)
  | fdiv (rd ra rb : Byte)
  -- SingleReg16Imm (R140)
  | seti (rd : Byte) (imm : BitVec 16)
  -- DoubleReg, compares (R142, R143)
  | cmp (ra rb : Byte)
  | fcmp (ra rb : Byte)
  -- SingleReg16Imm (R144)
  | cmpi (ra : Byte) (imm : BitVec 16)
  -- Imm24, relative branches (R152 to R158)
  | b (off : BitVec 24)
  | beq (off : BitVec 24)
  | bne (off : BitVec 24)
  | bgt (off : BitVec 24)
  | blt (off : BitVec 24)
  | bge (off : BitVec 24)
  | ble (off : BitVec 24)
  -- Imm24, link branches (R160 to R166)
  | bl (off : BitVec 24)
  | beql (off : BitVec 24)
  | bnel (off : BitVec 24)
  | bgtl (off : BitVec 24)
  | bltl (off : BitVec 24)
  | bgel (off : BitVec 24)
  | blel (off : BitVec 24)
  -- Empty, link-register-relative branches (R168 to R174)
  | blr
  | beqlr
  | bnelr
  | bgtlr
  | bltlr
  | bgelr
  | blelr
  -- SingleReg (R175, R176)
  | mflr (rd : Byte)
  | mtlr (rs : Byte)
  -- DoubleReg8Imm, loads (R181 to R183)
  | ldb (rd rb off : Byte)
  | ldh (rd rb off : Byte)
  | ldw (rd rb off : Byte)
  -- DoubleReg8Imm, stores (R184 to R186)
  | stb (rs rb off : Byte)
  | sth (rs rb off : Byte)
  | stw (rs rb off : Byte)
  -- Syscall (R190)
  | syscall (kind r : Byte)
deriving DecidableEq, Repr

/-- The mnemonic of an instruction. -/
def Instr.mnemonic : Instr → Mnemonic
  | .add _ _ _ => .add
  | .sub _ _ _ => .sub
  | .mul _ _ _ => .mul
  | .and _ _ _ => .and
  | .or _ _ _ => .or
  | .xor _ _ _ => .xor
  | .addi _ _ _ => .addi
  | .subi _ _ _ => .subi
  | .muli _ _ _ => .muli
  | .andi _ _ _ => .andi
  | .ori _ _ _ => .ori
  | .xori _ _ _ => .xori
  | .not _ _ => .not
  | .shl _ _ _ => .shl
  | .shr _ _ _ => .shr
  | .fadd _ _ _ => .fadd
  | .fsub _ _ _ => .fsub
  | .fmul _ _ _ => .fmul
  | .fdiv _ _ _ => .fdiv
  | .seti _ _ => .seti
  | .cmp _ _ => .cmp
  | .fcmp _ _ => .fcmp
  | .cmpi _ _ => .cmpi
  | .b _ => .b
  | .beq _ => .beq
  | .bne _ => .bne
  | .bgt _ => .bgt
  | .blt _ => .blt
  | .bge _ => .bge
  | .ble _ => .ble
  | .bl _ => .bl
  | .beql _ => .beql
  | .bnel _ => .bnel
  | .bgtl _ => .bgtl
  | .bltl _ => .bltl
  | .bgel _ => .bgel
  | .blel _ => .blel
  | .blr => .blr
  | .beqlr => .beqlr
  | .bnelr => .bnelr
  | .bgtlr => .bgtlr
  | .bltlr => .bltlr
  | .bgelr => .bgelr
  | .blelr => .blelr
  | .mflr _ => .mflr
  | .mtlr _ => .mtlr
  | .ldb _ _ _ => .ldb
  | .ldh _ _ _ => .ldh
  | .ldw _ _ _ => .ldw
  | .stb _ _ _ => .stb
  | .sth _ _ _ => .sth
  | .stw _ _ _ => .stw
  | .syscall _ _ => .syscall

end Sys2Proof
end

