-- ==== Sys2Proof/WellFormed.lean ====
section
/-! DEFINITION. Which instructions are well formed under a configuration: the operand checks of 30_encoding.md R88 and
R89, and that the mnemonic has an opcode (R80). -/

namespace Sys2Proof

/-- The operand bytes an instruction uses as register indices, in the order B1, B2, B3 in which they are checked
(R88, R205). For `SYSCALL`, byte 2 is one unless the kind is `HALT` (R190). -/
def Instr.regBytes (c : Config) : Instr → List Byte
  | .add rd ra rb => [rd, ra, rb]
  | .sub rd ra rb => [rd, ra, rb]
  | .mul rd ra rb => [rd, ra, rb]
  | .and rd ra rb => [rd, ra, rb]
  | .or rd ra rb => [rd, ra, rb]
  | .xor rd ra rb => [rd, ra, rb]
  | .addi rd ra _ => [rd, ra]
  | .subi rd ra _ => [rd, ra]
  | .muli rd ra _ => [rd, ra]
  | .andi rd ra _ => [rd, ra]
  | .ori rd ra _ => [rd, ra]
  | .xori rd ra _ => [rd, ra]
  | .not rd ra => [rd, ra]
  | .shl rd ra _ => [rd, ra]
  | .shr rd ra _ => [rd, ra]
  | .fadd rd ra rb => [rd, ra, rb]
  | .fsub rd ra rb => [rd, ra, rb]
  | .fmul rd ra rb => [rd, ra, rb]
  | .fdiv rd ra rb => [rd, ra, rb]
  | .seti rd _ => [rd]
  | .cmp ra rb => [ra, rb]
  | .fcmp ra rb => [ra, rb]
  | .cmpi ra _ => [ra]
  | .b _ => []
  | .beq _ => []
  | .bne _ => []
  | .bgt _ => []
  | .blt _ => []
  | .bge _ => []
  | .ble _ => []
  | .bl _ => []
  | .beql _ => []
  | .bnel _ => []
  | .bgtl _ => []
  | .bltl _ => []
  | .bgel _ => []
  | .blel _ => []
  | .blr => []
  | .beqlr => []
  | .bnelr => []
  | .bgtlr => []
  | .bltlr => []
  | .bgelr => []
  | .blelr => []
  | .mflr rd => [rd]
  | .mtlr rs => [rs]
  | .ldb rd rb _ => [rd, rb]
  | .ldh rd rb _ => [rd, rb]
  | .ldw rd rb _ => [rd, rb]
  | .stb rs rb _ => [rs, rb]
  | .sth rs rb _ => [rs, rb]
  | .stw rs rb _ => [rs, rb]
  | .syscall kind r => if kind = c.kinds.halt then [] else [r]

/-- The kind byte of a `SYSCALL` is one of the five `SYSK` values (R89); true of every other instruction. -/
def Instr.kindKnown (c : Config) : Instr → Bool
  | .syscall kind _ => c.kinds.all.contains kind
  | .add _ _ _ => true
  | .sub _ _ _ => true
  | .mul _ _ _ => true
  | .and _ _ _ => true
  | .or _ _ _ => true
  | .xor _ _ _ => true
  | .addi _ _ _ => true
  | .subi _ _ _ => true
  | .muli _ _ _ => true
  | .andi _ _ _ => true
  | .ori _ _ _ => true
  | .xori _ _ _ => true
  | .not _ _ => true
  | .shl _ _ _ => true
  | .shr _ _ _ => true
  | .fadd _ _ _ => true
  | .fsub _ _ _ => true
  | .fmul _ _ _ => true
  | .fdiv _ _ _ => true
  | .seti _ _ => true
  | .cmp _ _ => true
  | .fcmp _ _ => true
  | .cmpi _ _ => true
  | .b _ => true
  | .beq _ => true
  | .bne _ => true
  | .bgt _ => true
  | .blt _ => true
  | .bge _ => true
  | .ble _ => true
  | .bl _ => true
  | .beql _ => true
  | .bnel _ => true
  | .bgtl _ => true
  | .bltl _ => true
  | .bgel _ => true
  | .blel _ => true
  | .blr => true
  | .beqlr => true
  | .bnelr => true
  | .bgtlr => true
  | .bltlr => true
  | .bgelr => true
  | .blelr => true
  | .mflr _ => true
  | .mtlr _ => true
  | .ldb _ _ _ => true
  | .ldh _ _ _ => true
  | .ldw _ _ _ => true
  | .stb _ _ _ => true
  | .sth _ _ _ => true
  | .stw _ _ _ => true

/-- The mnemonic has an opcode under `OPC` (R80, R81). -/
def Instr.live (c : Config) (i : Instr) : Bool := c.opcodes.contains i.mnemonic

/-- Every register byte is below 32 (R88). -/
def Instr.regsValid (c : Config) (i : Instr) : Bool := (i.regBytes c).all fun b => decide (b.toNat < 32)

/-- A well-formed instruction: it has an opcode, its kind is known and its register bytes are valid, so that only the
memory bounds can make it fault. -/
def Instr.wellFormed (c : Config) (i : Instr) : Bool := i.live c && i.kindKnown c && i.regsValid c

end Sys2Proof
end

