-- ==== Sys2Proof/Decode.lean ====
section
/-! DEFINITION. From instruction words to instructions and back: the field positions (00_scope.md R11), the eight
format classes (30_encoding.md R71 to R78), the decoder (R92), the encoder of the same tables (R104), and the reference
opcode numbers of R80. -/

namespace Sys2Proof

/-- Byte `k` of an instruction word, `w[31-8k : 24-8k]` (R11); byte 0 is the opcode, bytes 1 to 3 are the operand bytes
B1, B2, B3 (R68). -/
def operandByte (k : Nat) (w : Word) : Byte := w.extractLsb' (24 - 8 * k) 8

/-- The opcode byte `w[31:24]` (R68). -/
def opcodeByte (w : Word) : Byte := operandByte 0 w

/-- `imm16 = w[15:0]` (R73). -/
def immField16 (w : Word) : BitVec 16 := w.extractLsb' 0 16

/-- `off24 = w[23:0]` (R77). -/
def offField24 (w : Word) : BitVec 24 := w.extractLsb' 0 24

/-- The eight format classes (R71 to R78). -/
inductive Format where
  | empty | singleReg | singleReg16Imm | doubleReg | doubleReg8Imm | tripleReg | imm24 | syscall
deriving DecidableEq, Repr

/-- The static opcode to format mapping (R69, R80). -/
def Mnemonic.format : Mnemonic → Format
  | .add | .sub | .mul | .and | .or | .xor | .fadd | .fsub | .fmul | .fdiv => .tripleReg
  | .addi | .subi | .muli | .andi | .ori | .xori | .shl | .shr | .ldb | .ldh | .ldw | .stb | .sth | .stw => .doubleReg8Imm
  | .not | .cmp | .fcmp => .doubleReg
  | .seti | .cmpi => .singleReg16Imm
  | .b | .beq | .bne | .bgt | .blt | .bge | .ble | .bl | .beql | .bnel | .bgtl | .bltl | .bgel | .blel => .imm24
  | .blr | .beqlr | .bnelr | .bgtlr | .bltlr | .bgelr | .blelr => .empty
  | .mflr | .mtlr => .singleReg
  | .syscall => .syscall

/-- The bits of a word that a format reads: the opcode byte and its operand fields; a byte outside them is unused
(R71 to R78, R87). -/
def Format.usedMask : Format → Word
  | .tripleReg | .doubleReg8Imm | .singleReg16Imm | .imm24 => 0xFFFFFFFF#32
  | .doubleReg | .syscall => 0xFFFFFF00#32
  | .singleReg => 0xFFFF0000#32
  | .empty => 0xFF000000#32

/-- Cut the operand bytes of a word by the format of a mnemonic (R92, R104). -/
def cutOperands (m : Mnemonic) (w : Word) : Instr :=
  match m with
  | .add => .add (operandByte 1 w) (operandByte 2 w) (operandByte 3 w)
  | .sub => .sub (operandByte 1 w) (operandByte 2 w) (operandByte 3 w)
  | .mul => .mul (operandByte 1 w) (operandByte 2 w) (operandByte 3 w)
  | .and => .and (operandByte 1 w) (operandByte 2 w) (operandByte 3 w)
  | .or => .or (operandByte 1 w) (operandByte 2 w) (operandByte 3 w)
  | .xor => .xor (operandByte 1 w) (operandByte 2 w) (operandByte 3 w)
  | .addi => .addi (operandByte 1 w) (operandByte 2 w) (operandByte 3 w)
  | .subi => .subi (operandByte 1 w) (operandByte 2 w) (operandByte 3 w)
  | .muli => .muli (operandByte 1 w) (operandByte 2 w) (operandByte 3 w)
  | .andi => .andi (operandByte 1 w) (operandByte 2 w) (operandByte 3 w)
  | .ori => .ori (operandByte 1 w) (operandByte 2 w) (operandByte 3 w)
  | .xori => .xori (operandByte 1 w) (operandByte 2 w) (operandByte 3 w)
  | .not => .not (operandByte 1 w) (operandByte 2 w)
  | .shl => .shl (operandByte 1 w) (operandByte 2 w) (operandByte 3 w)
  | .shr => .shr (operandByte 1 w) (operandByte 2 w) (operandByte 3 w)
  | .fadd => .fadd (operandByte 1 w) (operandByte 2 w) (operandByte 3 w)
  | .fsub => .fsub (operandByte 1 w) (operandByte 2 w) (operandByte 3 w)
  | .fmul => .fmul (operandByte 1 w) (operandByte 2 w) (operandByte 3 w)
  | .fdiv => .fdiv (operandByte 1 w) (operandByte 2 w) (operandByte 3 w)
  | .seti => .seti (operandByte 1 w) (immField16 w)
  | .cmp => .cmp (operandByte 1 w) (operandByte 2 w)
  | .fcmp => .fcmp (operandByte 1 w) (operandByte 2 w)
  | .cmpi => .cmpi (operandByte 1 w) (immField16 w)
  | .b => .b (offField24 w)
  | .beq => .beq (offField24 w)
  | .bne => .bne (offField24 w)
  | .bgt => .bgt (offField24 w)
  | .blt => .blt (offField24 w)
  | .bge => .bge (offField24 w)
  | .ble => .ble (offField24 w)
  | .bl => .bl (offField24 w)
  | .beql => .beql (offField24 w)
  | .bnel => .bnel (offField24 w)
  | .bgtl => .bgtl (offField24 w)
  | .bltl => .bltl (offField24 w)
  | .bgel => .bgel (offField24 w)
  | .blel => .blel (offField24 w)
  | .blr => .blr
  | .beqlr => .beqlr
  | .bnelr => .bnelr
  | .bgtlr => .bgtlr
  | .bltlr => .bltlr
  | .bgelr => .bgelr
  | .blelr => .blelr
  | .mflr => .mflr (operandByte 1 w)
  | .mtlr => .mtlr (operandByte 1 w)
  | .ldb => .ldb (operandByte 1 w) (operandByte 2 w) (operandByte 3 w)
  | .ldh => .ldh (operandByte 1 w) (operandByte 2 w) (operandByte 3 w)
  | .ldw => .ldw (operandByte 1 w) (operandByte 2 w) (operandByte 3 w)
  | .stb => .stb (operandByte 1 w) (operandByte 2 w) (operandByte 3 w)
  | .sth => .sth (operandByte 1 w) (operandByte 2 w) (operandByte 3 w)
  | .stw => .stw (operandByte 1 w) (operandByte 2 w) (operandByte 3 w)
  | .syscall => .syscall (operandByte 1 w) (operandByte 2 w)

/-- The operand bytes B1, B2, B3 that the encoder writes, unused bytes zero (R104). -/
def Instr.operandBits : Instr → BitVec 24
  | .add rd ra rb => rd ++ ra ++ rb
  | .sub rd ra rb => rd ++ ra ++ rb
  | .mul rd ra rb => rd ++ ra ++ rb
  | .and rd ra rb => rd ++ ra ++ rb
  | .or rd ra rb => rd ++ ra ++ rb
  | .xor rd ra rb => rd ++ ra ++ rb
  | .addi rd ra imm => rd ++ ra ++ imm
  | .subi rd ra imm => rd ++ ra ++ imm
  | .muli rd ra imm => rd ++ ra ++ imm
  | .andi rd ra imm => rd ++ ra ++ imm
  | .ori rd ra imm => rd ++ ra ++ imm
  | .xori rd ra imm => rd ++ ra ++ imm
  | .not rd ra => rd ++ ra ++ 0#8
  | .shl rd ra amt => rd ++ ra ++ amt
  | .shr rd ra amt => rd ++ ra ++ amt
  | .fadd rd ra rb => rd ++ ra ++ rb
  | .fsub rd ra rb => rd ++ ra ++ rb
  | .fmul rd ra rb => rd ++ ra ++ rb
  | .fdiv rd ra rb => rd ++ ra ++ rb
  | .seti rd imm => rd ++ imm
  | .cmp ra rb => ra ++ rb ++ 0#8
  | .fcmp ra rb => ra ++ rb ++ 0#8
  | .cmpi ra imm => ra ++ imm
  | .b off => off
  | .beq off => off
  | .bne off => off
  | .bgt off => off
  | .blt off => off
  | .bge off => off
  | .ble off => off
  | .bl off => off
  | .beql off => off
  | .bnel off => off
  | .bgtl off => off
  | .bltl off => off
  | .bgel off => off
  | .blel off => off
  | .blr => 0#24
  | .beqlr => 0#24
  | .bnelr => 0#24
  | .bgtlr => 0#24
  | .bltlr => 0#24
  | .bgelr => 0#24
  | .blelr => 0#24
  | .mflr rd => rd ++ 0#16
  | .mtlr rs => rs ++ 0#16
  | .ldb rd rb off => rd ++ rb ++ off
  | .ldh rd rb off => rd ++ rb ++ off
  | .ldw rd rb off => rd ++ rb ++ off
  | .stb rs rb off => rs ++ rb ++ off
  | .sth rs rb off => rs ++ rb ++ off
  | .stw rs rb off => rs ++ rb ++ off
  | .syscall kind r => kind ++ r ++ 0#8

/-- Why bytes or a word are no instruction. -/
inductive DecodeError where
  /-- The opcode byte is at or above `OPCODE_COUNT` (R85): the step raises `InvalidOpcode`. -/
  | invalidOpcode (op : Byte)
  /-- Not the four bytes of one word (R90): raised by `decodeBytes` alone, never by a step, whose fetch gives a whole
  word. Safe. -/
  | notOneWord
deriving DecidableEq, Repr

/-- Decode (R92): the opcode byte alone chooses the mnemonic, `OPC` read backwards, and so the format (R69); an opcode
byte at or above `OPCODE_COUNT` is the verdict `InvalidOpcode` (R85). -/
def decode (c : Config) (w : Word) : Except DecodeError Instr :=
  match c.opcodes[(opcodeByte w).toNat]? with
  | some m => .ok (cutOperands m w)
  | none => .error (.invalidOpcode (opcodeByte w))

/-- The word of four bytes, the first in the high bits (R50, R51). -/
def wordOfBytes (b0 b1 b2 b3 : Byte) : Word := b0 ++ b1 ++ b2 ++ b3

/-- The four bytes of a word as the image stores them, most significant first (R51). -/
def bytesOfWord (w : Word) : List Byte := [operandByte 0 w, operandByte 1 w, operandByte 2 w, operandByte 3 w]

/-- Decode the four bytes of an instruction in image order (R51, R90). -/
def decodeBytes (c : Config) : List Byte → Except DecodeError Instr
  | [b0, b1, b2, b3] => decode c (wordOfBytes b0 b1 b2 b3)
  | _ => .error .notOneWord

/-- The opcode byte of a mnemonic, `OPC(m)`; none where the configuration gives the mnemonic no opcode (R80). -/
def opcodeOf (c : Config) (m : Mnemonic) : Option Byte := (c.opcodes.idxOf? m).map (BitVec.ofNat 8)

/-- Encode an instruction (R104): its opcode byte, then its operand bytes, unused ones zero (R87). -/
def encode (c : Config) (i : Instr) : Option Word := (opcodeOf c i.mnemonic).map fun op => op ++ i.operandBits

/-- DESIGN CHOICE (log 2): the reference numbering of R80 (D2, D3), the one spec/opcode_table.json matches on. -/
def referenceOpcodes : List Mnemonic :=
  [.add, .sub, .mul, .and, .or, .xor, .addi, .subi, .muli,
   .andi, .ori, .xori, .not, .shl, .shr, .fadd, .fsub, .fmul,
   .fdiv, .seti, .cmp, .fcmp, .cmpi, .b, .beq, .bne, .bgt,
   .blt, .bge, .ble, .bl, .beql, .bnel, .bgtl, .bltl, .bgel,
   .blel, .blr, .beqlr, .bnelr, .bgtlr, .bltlr, .bgelr, .blelr, .mflr,
   .mtlr, .ldb, .ldh, .ldw, .stb, .sth, .stw, .syscall]

/-- The reference `SYSK` values of R84 (DESIGN CHOICE, log 1; D26). -/
def referenceKinds : SysKinds := ⟨0#8, 1#8, 2#8, 3#8, 4#8⟩

/-- DESIGN CHOICE (log 1): the reference configuration of R9 and 95_test_vectors.md section 0. -/
def referenceConfig : Config where
  memSize := 1024
  opcodes := referenceOpcodes
  kinds := referenceKinds
  imm8Ext := .zero
  shrKind := .logical
  cmpSigned := false
  fcmpUnordered := ⟨false, false, false⟩
  loadExt := .zero
  linkIfNotTaken := false
  r0Init := 1024#32
  initData := []

/-- The word of an opcode-table row: an instruction is one 32-bit word (R68), so only the low 32 of `nbits` count. -/
def tableWord (nbits w : Nat) : Word := BitVec.ofNat 32 (w % 2 ^ nbits)

/-- The instruction the decoder reads, under the reference numbering, from the bytes of a table row's word stored as
the image stores them. -/
def decodeTableWord (nbits w : Nat) : Option Instr :=
  match decodeBytes referenceConfig (bytesOfWord (tableWord nbits w)) with
  | .ok i => some i
  | .error _ => none

end Sys2Proof
end

