-- ==== Sys2Proof/Machine/State.lean ====
section
/-! DEFINITION. The state of the block (10_state.md R43), what can stop the model, and the state after reset (R38,
70_reset_and_hazards.md R231, R232). -/

namespace Sys2Proof.Machine

/-- What a memory access was for (60_exceptions.md R200). -/
inductive Access where
  | fetch | load | store
deriving DecidableEq, Repr

/-- The block's own faults with the information each records (R200). The faulting `pc` that R200 also lists is the
`pc` of the state, which a fault leaves at its instruction (R203). A fetch address is `4 × u(pc)`, not wrapped, so an
address is a natural number here (log 16). -/
inductive ExecFault where
  | invalidOpcode (op : Byte)
  | invalidRegister (index : Byte)
  | memoryFault (addr : Nat) (access : Access)
  | invalidSyscall (kind : Byte)
deriving DecidableEq, Repr

/-- The run status (10_state.md R33). -/
inductive RunStatus where
  | running
  | halted
  | faulted (f : ExecFault)
  | stopped
deriving DecidableEq, Repr

/-- An output event (R41). -/
inductive Event where
  | char (b : Byte)
  | int (v : Word)
  | float (v : Word)
deriving DecidableEq, Repr

/-- The memory buffer as (address, byte) pairs, in the canonical form `Memory.wf` of Machine/Ops.lean; what an address
not listed reads as is `Memory.unlistedByte`. -/
abbrev Memory := List Host.Cell

/-- The complete state (R43), with the configuration beside it (log 1). -/
structure State where
  /-- The parameters of 00_scope.md R9: fixed for a run, no instruction changes them (R43). -/
  cfg : Config
  /-- `x[0]` to `x[31]` (R20). -/
  gpr : Vector Word 32
  /-- The program counter, a word index (R23). -/
  pc : Word
  /-- The link register (R30). -/
  lr : Word
  /-- The compare flags (R28). -/
  flags : Flags
  /-- The run status (R33). -/
  status : RunStatus
  /-- The whole byte buffer: the code region (big-endian, D35, log 14), then the data region (R36). -/
  mem : Memory
  /-- `N`, the program length in words; `codeSize` is four times it (R35, log 15). -/
  codeWords : Nat
  /-- The output history, oldest event first (R41). -/
  out : List Event
  /-- The model's own field (log 8): how many draws of R10 have been taken. -/
  draws : Nat
deriving DecidableEq, Repr

/-- Where the MODEL stops without a next state. The block's own faults are not here: they are next states whose status
is `Faulted` (log 7). -/
inductive Fault where
  /-- Raised by `step` alone, in a state whose status is not `Running`: R33 gives such a state no next step. Safe. -/
  | notRunning
deriving DecidableEq, Repr

/-- Why an instruction could have no meaning in the model. -/
inductive Refusal where
  /-- For an arm of `exec` with no meaning yet. No arm is: nothing raises it. Safe. -/
  | notModelled (mnemonic : String)
deriving DecidableEq, Repr

/-- What an instruction's meaning answers. -/
abbrev Result := Host.Outcome State Fault Refusal

/-- The state right after reset (R38) under the reference configuration, with no program placed: the empty image of
70_reset_and_hazards.md R234, a valid load. `pc`, `status`, `codeWords` and `out` are the spec's values. DESIGN CHOICE:
`x[1..31]`, `lr` and the flags, which the spec leaves open, are zero and clear (log 4), `x[0]` is the reference
`R0_INIT` (log 5), the data bytes are the reference `INIT_DATA` (log 6), no draw has been taken (log 8). -/
def State.reset : State where
  cfg := referenceConfig
  gpr := (Vector.replicate 32 0#32).set 0 referenceConfig.r0Init
  pc := 0#32
  lr := 0#32
  flags := ⟨false, false, false⟩
  status := .running
  mem := []
  codeWords := 0
  out := []
  draws := 0

end Sys2Proof.Machine
end

