-- ==== Sys2Proof/Machine/Ops.lean ====
section
/-! DEFINITION. The named operations over memory, registers, output and run status: the primitives of 00_scope.md R14
to R16, raising a fault (60_exceptions.md R202, R203), the draws of R10 and the step's increment (30_encoding.md R95). -/

namespace Sys2Proof.Machine

/-! ## The byte buffer -/

/-- DESIGN CHOICE (log 6): an address not listed holds zero, the reference `INIT_DATA` (D31). -/
def Memory.unlistedByte : Byte := 0#8

/-- The byte at an address. -/
def Memory.read : Memory → Nat → Byte
  | [], _ => Memory.unlistedByte
  | (a, b) :: m, x => if a = x then b else Memory.read m x

/-- Put a cell before the first cell with a higher address. -/
def Memory.insertCell (x : Nat) (v : Byte) : Memory → Memory
  | [] => [(x, v)]
  | (a, b) :: m => if x < a then (x, v) :: (a, b) :: m else (a, b) :: Memory.insertCell x v m

/-- Write one byte, keeping the canonical form: a byte equal to what an unlisted address holds leaves no cell. -/
def Memory.write (m : Memory) (x : Nat) (v : Byte) : Memory :=
  let rest := m.filter fun c => c.1 ≠ x
  if v = Memory.unlistedByte then rest else Memory.insertCell x v rest

/-- Write cells in order. -/
def Memory.writeAll (m : Memory) (cells : List Host.Cell) : Memory :=
  cells.foldl (fun m c => m.write c.1 c.2) m

/-- The canonical form: addresses strictly rising, no cell that an unlisted address would read the same as. -/
abbrev Memory.wf (m : Memory) : Prop :=
  (m.map Prod.fst).Pairwise (· < ·) ∧ ∀ c ∈ m, c.2 ≠ Memory.unlistedByte

/-- The cells of bytes laid out from an address upwards. -/
def cellsFrom : Nat → List Byte → List Host.Cell
  | _, [] => []
  | a, b :: bs => (a, b) :: cellsFrom (a + 1) bs

/-! ## Raising a fault -/

/-- Raise a fault (00_scope.md R15, 60_exceptions.md R202, R203, R206): the run ends with the status recording the fault;
nothing else changes, no register saves anything and control goes nowhere. -/
def State.raised (f : ExecFault) (s : State) : State := { s with status := .faulted f }

/-- The outcome of raising a fault: the block's faults are next states (log 7). There is no return from one (R207, R213). -/
def raise (f : ExecFault) (s : State) : Result := .next (s.raised f)

/-! ## Registers -/

/-- Read a general register (R20). -/
def State.reg (s : State) (i : Fin 32) : Word := s.gpr[i.val]

/-- Write a general register; none is hardwired (R20). -/
def State.setReg (s : State) (i : Fin 32) (v : Word) : State := { s with gpr := s.gpr.set i.val v }

/-- `CheckReg` (R16, R88): go on with the register index, or raise `InvalidRegister` with the byte. -/
def withReg (b : Byte) (s : State) (k : Fin 32 → Result) : Result :=
  if h : b.toNat < 32 then k ⟨b.toNat, h⟩ else raise (.invalidRegister b) s

/-! ## Draws -/

/-- Count one draw as taken. -/
def State.tickDraw (s : State) : State := { s with draws := s.draws + 1 }

/-- The NaN bit pattern a draw selects (41_float.md R135): its sign and fraction, a zero fraction replaced so that the
pattern is a NaN. Every NaN pattern is reached (log 10). -/
def nanOfDraw (d : Word) : Word :=
  if d.extractLsb' 0 23 = 0#23 then d ||| 0x7FC00000#32 else d ||| 0x7F800000#32

/-- A computed value, or one the spec leaves unconstrained. -/
inductive Computed where
  | value (v : Word)
  /-- Any 32-bit value (D11). -/
  | anyWord
  /-- Any NaN bit pattern (R135). -/
  | anyNan
deriving DecidableEq, Repr

/-- Write a computed value to a register, taking a draw where the value is open (R10). -/
def State.setComputed (s : State) (d : Fin 32) : Computed → State
  | .value v => s.setReg d v
  | .anyWord => (s.setReg d (Config.draw s.draws)).tickDraw
  | .anyNan => (s.setReg d (nanOfDraw (Config.draw s.draws))).tickDraw

/-! ## Instruction fetch -/

/-- `codeSize` in bytes, four times the program length (R35, R46). -/
def State.codeSize (s : State) : Nat := 4 * s.codeWords

/-- The four bytes at an address as a word, the lowest address in the high bits (R51). -/
def Memory.readWord (m : Memory) (a : Nat) : Word :=
  wordOfBytes (m.read a) (m.read (a + 1)) (m.read (a + 2)) (m.read (a + 3))

/-- `FetchWord(pc)` (20_memory.md R52): the byte address is `4 × u(pc)`, not wrapped. -/
def fetchWord (s : State) : Except ExecFault Word :=
  let a := 4 * s.pc.toNat
  if s.codeSize ≤ a ∨ s.cfg.memSize ≤ a then .error (.memoryFault a .fetch) else .ok (s.mem.readWord a)

/-! ## Data access -/

/-- `CheckData` passes for a byte address (R55). -/
def State.dataOk (s : State) (a : Word) : Bool := decide (s.codeSize ≤ a.toNat) && decide (a.toNat < s.cfg.memSize)

/-- The byte addresses of an access of `n` bytes at `ea`, modulo `2^32` (R54, D16). -/
def byteAddrs (ea : Word) (n : Nat) : List Word := (List.range n).map fun i => ea + BitVec.ofNat 32 i

/-- The number whose base-256 digits are the bytes, the first most significant (R50). -/
def bigEndian (bs : List Byte) : Nat := bs.foldl (fun acc b => acc * 256 + b.toNat) 0

/-- `MemRead(ea, n)` (R57): the first byte that fails its check is the one reported (R205). -/
def memRead (s : State) (ea : Word) (n : Nat) : Except ExecFault (BitVec (8 * n)) :=
  match (byteAddrs ea n).find? fun a => !s.dataOk a with
  | some a => .error (.memoryFault a.toNat .load)
  | none => .ok (BitVec.ofNat (8 * n) (bigEndian ((byteAddrs ea n).map fun a => s.mem.read a.toNat)))

/-- Byte `i` of the `n` bytes a store of `v` writes: `v[8(n-1-i)+7 : 8(n-1-i)]` (R56). -/
def storeByte (v : Word) (n i : Nat) : Byte := v.extractLsb' (8 * (n - 1 - i)) 8

/-- The bytes of `MemWrite(ea, n, v)` with their addresses, in the order they are checked (R56). -/
def storeCells (ea : Word) (n : Nat) (v : Word) : List (Word × Byte) :=
  (List.range n).map fun i => (ea + BitVec.ofNat 32 i, storeByte v n i)

/-- The cells of the buffer that store cells write. -/
def bufferCells (cs : List (Word × Byte)) : List Host.Cell := cs.map fun c => (c.1.toNat, c.2)

/-- The elements whose bit of a draw is set, counting bits from `i`. -/
def chosenBy {α : Type} (d : Word) : Nat → List α → List α
  | _, [] => []
  | i, c :: cs => if d.getLsbD i then c :: chosenBy d (i + 1) cs else chosenBy d (i + 1) cs

/-- The buffer after a faulting store (R58, D17): each byte that passed its check before the failing one is old or new,
as a draw has it; no other byte changes (log 11). -/
def State.partialStore (s : State) (cells : List (Word × Byte)) : State :=
  let passed := cells.takeWhile fun c => s.dataOk c.1
  { s with mem := s.mem.writeAll (bufferCells (chosenBy (Config.draw s.draws) 0 passed)) }.tickDraw

/-- `MemWrite(ea, n, v)` (R56): all bytes are checked before any is written; the first that fails is reported (R205). -/
def memWrite (ea : Word) (n : Nat) (v : Word) (s : State) : Result :=
  match (byteAddrs ea n).find? fun a => !s.dataOk a with
  | some a => raise (.memoryFault a.toNat .store) (s.partialStore (storeCells ea n v))
  | none => .next { s with mem := s.mem.writeAll (bufferCells (storeCells ea n v)) }

/-! ## Output, the step's increment, the host's stop -/

/-- `Emit(e)` (R41, R196): append an event. -/
def State.emit (s : State) (e : Event) : State := { s with out := s.out ++ [e] }

/-- Whether the run has ended on a fault. -/
def RunStatus.isFaulted : RunStatus → Bool
  | .faulted _ => true
  | _ => false

/-- The increment at the end of a step (R91, R95): it runs after every handler that raised no fault (R97). -/
def State.advance (s : State) : State := if s.status.isFaulted then s else { s with pc := s.pc + 1#32 }

/-- `advance` on a handler's outcome. -/
def advanceResult : Result → Result
  | .next s => .next s.advance
  | .fault f => .fault f
  | .refused r => .refused r

/-- The host stops a running block between two steps (60_exceptions.md R211, D34); no step does this (log 20). -/
def State.hostStop (s : State) : State :=
  match s.status with
  | .running => { s with status := .stopped }
  | _ => s

end Sys2Proof.Machine
end

