-- ==== Sys2Proof/Machine/Operands.lean ====
section
/-! DEFINITION. How operand fields become 32-bit operands (30_encoding.md R79, 44_load_store.md R180). No immediate is
scaled. -/

namespace Sys2Proof.Machine

/-- Extend an `n`-bit value to 32 bits, by zeros or by its sign (R12). -/
def extend (e : Ext) {n : Nat} (v : BitVec n) : Word :=
  match e with
  | .zero => v.setWidth 32
  | .sign => v.signExtend 32

/-- `IMMX(B3)`, the 8-bit immediate of the arithmetic and logic forms (R79, D9). -/
def immX (c : Config) (imm : Byte) : Word := extend c.imm8Ext imm

/-- The 16-bit immediate of `SETI` and `CMPI`, zero-extended (R79). -/
def imm16 (imm : BitVec 16) : Word := imm.setWidth 32

/-- The signed 8-bit offset of loads and stores (R79). -/
def off8 (off : Byte) : Word := off.signExtend 32

/-- The signed 24-bit word offset of branches (R79). -/
def off24 (off : BitVec 24) : Word := off.signExtend 32

/-- `EA(w) = x[B2] + sext_8(w[7:0])`, modulo `2^32` (R180, D16). -/
def effAddr (s : State) (rb : Fin 32) (off : Byte) : Word := s.reg rb + off8 off

end Sys2Proof.Machine
end

