-- ==== Sys2Proof/Machine/Alu.lean ====
section
/-! DEFINITION. Integer arithmetic, logic and shifts (40_alu.md R110 to R127). The destination is byte 1; every register
byte is checked before the write, sources are read before it, and no flag, `lr` or memory byte is written (R110). -/

namespace Sys2Proof.Machine

/-- The register-register-register form `x[B1] <- f(x[B2], x[B3])` (R110). -/
def aluRegs (f : Word → Word → Word) (rd ra rb : Byte) (s : State) : Result :=
  withReg rd s fun d => withReg ra s fun a => withReg rb s fun b => .next (s.setReg d (f (s.reg a) (s.reg b)))

/-- The register-register-immediate form `x[B1] <- f(x[B2], IMMX(B3))` (R110). -/
def aluImm (f : Word → Word → Word) (rd ra imm : Byte) (s : State) : Result :=
  withReg rd s fun d => withReg ra s fun a => .next (s.setReg d (f (s.reg a) (immX s.cfg imm)))

/-- A shift by `amt`: by 32 or more the result is a draw (R124, R125, D11, log 9). -/
def shiftBy (f : Word → Nat → Word) (rd ra amt : Byte) (s : State) : Result :=
  withReg rd s fun d => withReg ra s fun a =>
    .next (s.setComputed d (if amt.toNat < 32 then .value (f (s.reg a) amt.toNat) else .anyWord))

/-- A right shift by fewer than 32, logical or arithmetic (R125, D10). -/
def shiftRight (k : ShiftKind) (v : Word) (n : Nat) : Word :=
  match k with
  | .logical => v >>> n
  | .arithmetic => v.sshiftRight n

/-- `ADD rd, ra, rb`: add (R111). -/
def execAdd (rd ra rb : Byte) (s : State) : Result := aluRegs (fun x y => x + y) rd ra rb s

/-- `SUB rd, ra, rb`: subtract (R112). -/
def execSub (rd ra rb : Byte) (s : State) : Result := aluRegs (fun x y => x - y) rd ra rb s

/-- `MUL rd, ra, rb`: multiply, the low 32 bits (R113). -/
def execMul (rd ra rb : Byte) (s : State) : Result := aluRegs (fun x y => x * y) rd ra rb s

/-- `AND rd, ra, rb`: bitwise and (R114). -/
def execAnd (rd ra rb : Byte) (s : State) : Result := aluRegs (fun x y => x &&& y) rd ra rb s

/-- `OR rd, ra, rb`: bitwise inclusive or (R115). -/
def execOr (rd ra rb : Byte) (s : State) : Result := aluRegs (fun x y => x ||| y) rd ra rb s

/-- `XOR rd, ra, rb`: bitwise exclusive or (R116). -/
def execXor (rd ra rb : Byte) (s : State) : Result := aluRegs (fun x y => x ^^^ y) rd ra rb s

/-- `ADDI rd, ra, imm8`: add, with the immediate (R117). -/
def execAddi (rd ra imm : Byte) (s : State) : Result := aluImm (fun x y => x + y) rd ra imm s

/-- `SUBI rd, ra, imm8`: subtract, with the immediate (R118). -/
def execSubi (rd ra imm : Byte) (s : State) : Result := aluImm (fun x y => x - y) rd ra imm s

/-- `MULI rd, ra, imm8`: multiply, the low 32 bits, with the immediate (R119). -/
def execMuli (rd ra imm : Byte) (s : State) : Result := aluImm (fun x y => x * y) rd ra imm s

/-- `ANDI rd, ra, imm8`: bitwise and, with the immediate (R120). -/
def execAndi (rd ra imm : Byte) (s : State) : Result := aluImm (fun x y => x &&& y) rd ra imm s

/-- `ORI rd, ra, imm8`: bitwise inclusive or, with the immediate (R121). -/
def execOri (rd ra imm : Byte) (s : State) : Result := aluImm (fun x y => x ||| y) rd ra imm s

/-- `XORI rd, ra, imm8`: bitwise exclusive or, with the immediate (R122). -/
def execXori (rd ra imm : Byte) (s : State) : Result := aluImm (fun x y => x ^^^ y) rd ra imm s

/-- `NOT rd, ra`: bitwise complement (R123). -/
def execNot (rd ra : Byte) (s : State) : Result :=
  withReg rd s fun d => withReg ra s fun a => .next (s.setReg d (~~~s.reg a))

/-- `SHL rd, ra, amt8`: shift left, zeros shifted in (R124). -/
def execShl (rd ra amt : Byte) (s : State) : Result := shiftBy (fun v n => v <<< n) rd ra amt s

/-- `SHR rd, ra, amt8`: shift right (R125). -/
def execShr (rd ra amt : Byte) (s : State) : Result := shiftBy (shiftRight s.cfg.shrKind) rd ra amt s

end Sys2Proof.Machine
end

