-- ==== Sys2Proof/Machine/FloatOps.lean ====
section
/-! DEFINITION. IEEE 754 binary32 arithmetic on register contents (41_float.md R130 to R136): round to nearest, ties to
even, subnormals kept, no traps, a NaN result left open. PRESUMED (log 12): the spec takes these results from general
knowledge (D13).

Every finite binary32 value is a whole number of units of `2^-149`. Magnitudes are natural numbers of that unit, sums,
products and quotients are formed exactly, and one function rounds. -/

namespace Sys2Proof.Machine

/-- What a 32-bit pattern stands for. -/
inductive FloatClass where
  | nan
  | inf (neg : Bool)
  /-- A finite value: its sign and its magnitude in units of `2^-149`. -/
  | fin (neg : Bool) (mag : Nat)
deriving DecidableEq, Repr

/-- The sign bit 31. -/
def floatSign (v : Word) : Bool := v.getLsbD 31

/-- The biased exponent, bits 30:23. -/
def floatExp (v : Word) : Nat := (v.extractLsb' 23 8).toNat

/-- The fraction, bits 22:0. -/
def floatFrac (v : Word) : Nat := (v.extractLsb' 0 23).toNat

/-- `f32(v)` (R12, R130): the value of a pattern, without conversion. -/
def floatClass (v : Word) : FloatClass :=
  if floatExp v = 255 then
    if floatFrac v = 0 then .inf (floatSign v) else .nan
  else if floatExp v = 0 then .fin (floatSign v) (floatFrac v)
  else .fin (floatSign v) ((2 ^ 23 + floatFrac v) * 2 ^ (floatExp v - 1))

/-- A pattern of a sign and 31 magnitude bits. -/
def floatPack (neg : Bool) (bits : Nat) : Word := BitVec.ofNat 32 ((if neg then 2 ^ 31 else 0) + bits)

/-- The magnitude bits of infinity. -/
def infBits : Nat := 0x7F800000

/-- `num / den` rounded to the nearest whole number, ties to even. -/
def roundQuot (num den : Nat) : Nat :=
  let q := num / den
  let r := num % den
  if 2 * r < den then q else if 2 * r = den then q + q % 2 else q + 1

/-- `roundTiesToEven` (R131): the magnitude bits of the binary32 value nearest to `num / den` units of `2^-149`, ties to
even, and infinity's where that is beyond the largest finite value. With `k` the number of low bits that 24 significant
bits leave out, rounding gives a whole number `r` of steps of `2^k` units; `k * 2^23 + r` are the exponent and fraction
bits together, a carry of `r` into the next exponent included. -/
def roundMag (num den : Nat) : Nat :=
  let q := num / den
  let k := if q < 2 ^ 24 then 0 else q.log2 - 23
  if 254 ≤ k then infBits else k * 2 ^ 23 + roundQuot num (den * 2 ^ k)

/-- A magnitude with a sign. -/
def withSign (neg : Bool) (n : Nat) : Int := if neg then -(n : Int) else n

/-- IEEE 754 addition (R131): an exact zero sum is `-0` only from two negative operands. -/
def floatAdd (a b : Word) : Computed :=
  match floatClass a, floatClass b with
  | .nan, _ => .anyNan
  | _, .nan => .anyNan
  | .inf s, .inf t => if s = t then .value (floatPack s infBits) else .anyNan
  | .inf s, .fin _ _ => .value (floatPack s infBits)
  | .fin _ _, .inf t => .value (floatPack t infBits)
  | .fin s m, .fin t n =>
    let sum := withSign s m + withSign t n
    if sum = 0 then .value (floatPack (s && t) 0)
    else .value (floatPack (decide (sum < 0)) (roundMag sum.natAbs 1))

/-- Negation: the sign bit flipped. -/
def floatNeg (a : Word) : Word := a ^^^ 0x80000000#32

/-- IEEE 754 subtraction (R132): addition of the negated subtrahend. -/
def floatSub (a b : Word) : Computed := floatAdd a (floatNeg b)

/-- IEEE 754 multiplication (R133): an infinity times a zero is a NaN. -/
def floatMul (a b : Word) : Computed :=
  match floatClass a, floatClass b with
  | .nan, _ => .anyNan
  | _, .nan => .anyNan
  | .inf s, .inf t => .value (floatPack (s != t) infBits)
  | .inf s, .fin t n => if n = 0 then .anyNan else .value (floatPack (s != t) infBits)
  | .fin s m, .inf t => if m = 0 then .anyNan else .value (floatPack (s != t) infBits)
  | .fin s m, .fin t n => .value (floatPack (s != t) (roundMag (m * n) (2 ^ 149)))

/-- IEEE 754 division (R134): a nonzero finite value by a zero is an infinity, `0 / 0` and `inf / inf` are NaNs, and no
case faults. -/
def floatDiv (a b : Word) : Computed :=
  match floatClass a, floatClass b with
  | .nan, _ => .anyNan
  | _, .nan => .anyNan
  | .inf _, .inf _ => .anyNan
  | .inf s, .fin t _ => .value (floatPack (s != t) infBits)
  | .fin s _, .inf t => .value (floatPack (s != t) 0)
  | .fin s m, .fin t n =>
    if n = 0 then (if m = 0 then .anyNan else .value (floatPack (s != t) infBits))
    else .value (floatPack (s != t) (roundMag (m * 2 ^ 149) n))

/-- The place of a value in the binary32 order (R143): both zeros are zero, an infinity is beyond every finite value, a
NaN has no place. -/
def floatKey : FloatClass → Option Int
  | .nan => none
  | .inf neg => some (withSign neg (2 ^ 24 * 2 ^ 253))
  | .fin neg m => some (withSign neg m)

end Sys2Proof.Machine
end

