-- ==== Sys2Proof/Machine/Flags.lean ====
section
/-! DEFINITION. What the compares write (42_set_compare.md R141 to R144) and what the conditional branches test
(43_branch.md R150). No other instruction touches the flags (10_state.md R28, R29). -/

namespace Sys2Proof.Machine

/-- Recompute all three flags from the order of two integers (R141). -/
def flagsOfOrder (l r : Int) : Flags := ⟨decide (r < l), decide (l < r), decide (l = r)⟩

/-- The flags of an integer compare, signed or unsigned (R142, D12). -/
def intFlags (signed : Bool) (l r : Word) : Flags :=
  if signed then flagsOfOrder l.toInt r.toInt else flagsOfOrder l.toNat r.toNat

/-- The flags of a float compare (R143): those of the binary32 order, or `FCMP_UNORDERED` with a NaN (D14). -/
def floatFlags (c : Config) (l r : Word) : Flags :=
  match floatKey (floatClass l), floatKey (floatClass r) with
  | some a, some b => flagsOfOrder a b
  | _, _ => c.fcmpUnordered

/-- The reference condition set `CONDS` (R82, R150, D5). -/
inductive Cond where
  | eq | ne | gt | lt | ge | le
deriving DecidableEq, Repr

/-- The predicates of R150; GE and LE are written over the set flags. -/
def Cond.holds (c : Cond) (f : Flags) : Bool :=
  match c with
  | .eq => f.eq
  | .ne => !f.eq
  | .gt => f.gt
  | .lt => f.lt
  | .ge => f.gt || f.eq
  | .le => f.lt || f.eq

end Sys2Proof.Machine
end

