-- ==== Sys2Proof/Machine/Branch.lean ====
section
/-! DEFINITION. Branches and the link register (43_branch.md R150 to R179). A taken branch leaves `pc` one below its
target, and the step's increment brings it there (30_encoding.md R94). -/

namespace Sys2Proof.Machine

/-- A relative branch (R151): `pc <- pc + off - 1` where taken. -/
def branchRel (taken : Bool) (off : BitVec 24) (s : State) : State :=
  if taken then { s with pc := s.pc + off24 off - 1#32 } else s

/-- `LinkBranch(taken)` (R159): `lr` takes the branch's own index, also where it is not taken if `LINK_IF_NOT_TAKEN`
holds (D20). -/
def linkBranch (taken : Bool) (off : BitVec 24) (s : State) : State :=
  if taken then { s with lr := s.pc, pc := s.pc + off24 off - 1#32 }
  else if s.cfg.linkIfNotTaken then { s with lr := s.pc } else s

/-- `ReturnBranch(taken)` (R167): `pc <- lr` where taken, so that the next instruction is `lr + 1`. -/
def returnBranch (taken : Bool) (s : State) : State := if taken then { s with pc := s.lr } else s

/-- `B off`: branch (R152). -/
def execB (off : BitVec 24) (s : State) : Result := .next (branchRel true off s)

/-- `BEQ off`: branch if equal (R153). -/
def execBeq (off : BitVec 24) (s : State) : Result := .next (branchRel (Cond.eq.holds s.flags) off s)

/-- `BNE off`: branch if not equal (R154). -/
def execBne (off : BitVec 24) (s : State) : Result := .next (branchRel (Cond.ne.holds s.flags) off s)

/-- `BGT off`: branch if greater (R155). -/
def execBgt (off : BitVec 24) (s : State) : Result := .next (branchRel (Cond.gt.holds s.flags) off s)

/-- `BLT off`: branch if less (R156). -/
def execBlt (off : BitVec 24) (s : State) : Result := .next (branchRel (Cond.lt.holds s.flags) off s)

/-- `BGE off`: branch if greater or equal (R157). -/
def execBge (off : BitVec 24) (s : State) : Result := .next (branchRel (Cond.ge.holds s.flags) off s)

/-- `BLE off`: branch if less or equal (R158). -/
def execBle (off : BitVec 24) (s : State) : Result := .next (branchRel (Cond.le.holds s.flags) off s)

/-- `BL off`: call (R160). -/
def execBl (off : BitVec 24) (s : State) : Result := .next (linkBranch true off s)

/-- `BEQL off`: call if equal (R161). -/
def execBeql (off : BitVec 24) (s : State) : Result := .next (linkBranch (Cond.eq.holds s.flags) off s)

/-- `BNEL off`: call if not equal (R162). -/
def execBnel (off : BitVec 24) (s : State) : Result := .next (linkBranch (Cond.ne.holds s.flags) off s)

/-- `BGTL off`: call if greater (R163). -/
def execBgtl (off : BitVec 24) (s : State) : Result := .next (linkBranch (Cond.gt.holds s.flags) off s)

/-- `BLTL off`: call if less (R164). -/
def execBltl (off : BitVec 24) (s : State) : Result := .next (linkBranch (Cond.lt.holds s.flags) off s)

/-- `BGEL off`: call if greater or equal (R165). -/
def execBgel (off : BitVec 24) (s : State) : Result := .next (linkBranch (Cond.ge.holds s.flags) off s)

/-- `BLEL off`: call if less or equal (R166). -/
def execBlel (off : BitVec 24) (s : State) : Result := .next (linkBranch (Cond.le.holds s.flags) off s)

/-- `BLR`: return (R168). -/
def execBlr (s : State) : Result := .next (returnBranch true s)

/-- `BEQLR`: return if equal (R169). -/
def execBeqlr (s : State) : Result := .next (returnBranch (Cond.eq.holds s.flags) s)

/-- `BNELR`: return if not equal (R170). -/
def execBnelr (s : State) : Result := .next (returnBranch (Cond.ne.holds s.flags) s)

/-- `BGTLR`: return if greater (R171). -/
def execBgtlr (s : State) : Result := .next (returnBranch (Cond.gt.holds s.flags) s)

/-- `BLTLR`: return if less (R172). -/
def execBltlr (s : State) : Result := .next (returnBranch (Cond.lt.holds s.flags) s)

/-- `BGELR`: return if greater or equal (R173). -/
def execBgelr (s : State) : Result := .next (returnBranch (Cond.ge.holds s.flags) s)

/-- `BLELR`: return if less or equal (R174). -/
def execBlelr (s : State) : Result := .next (returnBranch (Cond.le.holds s.flags) s)

/-- `MFLR rd`: move from the link register (R175). -/
def execMflr (rd : Byte) (s : State) : Result := withReg rd s fun d => .next (s.setReg d s.lr)

/-- `MTLR rs`: move to the link register (R176). -/
def execMtlr (rs : Byte) (s : State) : Result := withReg rs s fun r => .next { s with lr := s.reg r }

end Sys2Proof.Machine
end

