-- ==== Sys2Proof/Machine/FloatArith.lean ====
section
/-! DEFINITION. Float arithmetic (41_float.md R130 to R136): no flag, `lr` or memory is written and no float condition
faults. -/

namespace Sys2Proof.Machine

/-- `x[B1] <- f(x[B2], x[B3])` with a NaN result left open (R130, R135). -/
def floatRegs (f : Word → Word → Computed) (rd ra rb : Byte) (s : State) : Result :=
  withReg rd s fun d => withReg ra s fun a => withReg rb s fun b => .next (s.setComputed d (f (s.reg a) (s.reg b)))

/-- `FADD rd, ra, rb`: float add (R131). -/
def execFadd (rd ra rb : Byte) (s : State) : Result := floatRegs floatAdd rd ra rb s

/-- `FSUB rd, ra, rb`: float subtract (R132). -/
def execFsub (rd ra rb : Byte) (s : State) : Result := floatRegs floatSub rd ra rb s

/-- `FMUL rd, ra, rb`: float multiply (R133). -/
def execFmul (rd ra rb : Byte) (s : State) : Result := floatRegs floatMul rd ra rb s

/-- `FDIV rd, ra, rb`: float divide (R134). -/
def execFdiv (rd ra rb : Byte) (s : State) : Result := floatRegs floatDiv rd ra rb s

end Sys2Proof.Machine
end

