-- ==== Sys2Proof/Machine/LoadStore.lean ====
section
/-! DEFINITION. Loads and stores (44_load_store.md R180 to R188): base plus signed offset, each byte checked on its own,
registers checked before the address is formed (R205), the base never modified. -/

namespace Sys2Proof.Machine

/-- A load of `n` bytes (R180): a faulting load writes no register (20_memory.md R58). -/
def loadBytes (n : Nat) (ext : BitVec (8 * n) → Word) (rd rb off : Byte) (s : State) : Result :=
  withReg rd s fun d => withReg rb s fun b =>
    match memRead s (effAddr s b off) n with
    | .ok v => .next (s.setReg d (ext v))
    | .error f => raise f s

/-- A store of the low `n` bytes of a register (R180). -/
def storeBytes (n : Nat) (rs rb off : Byte) (s : State) : Result :=
  withReg rs s fun r => withReg rb s fun b => memWrite (effAddr s b off) n (s.reg r) s

/-- `LDB rd, rb, off8`: load byte, extended by `LOAD_EXT` (R181, D15). -/
def execLdb (rd rb off : Byte) (s : State) : Result := loadBytes 1 (extend s.cfg.loadExt) rd rb off s

/-- `LDH rd, rb, off8`: load halfword, extended by `LOAD_EXT` (R182, D15). -/
def execLdh (rd rb off : Byte) (s : State) : Result := loadBytes 2 (extend s.cfg.loadExt) rd rb off s

/-- `LDW rd, rb, off8`: load word (R183). -/
def execLdw (rd rb off : Byte) (s : State) : Result := loadBytes 4 (fun v => v) rd rb off s

/-- `STB rs, rb, off8`: store the low byte (R184). -/
def execStb (rs rb off : Byte) (s : State) : Result := storeBytes 1 rs rb off s

/-- `STH rs, rb, off8`: store the low halfword (R185). -/
def execSth (rs rb off : Byte) (s : State) : Result := storeBytes 2 rs rb off s

/-- `STW rs, rb, off8`: store the word (R186). -/
def execStw (rs rb off : Byte) (s : State) : Result := storeBytes 4 rs rb off s

end Sys2Proof.Machine
end

