-- ==== Sys2Proof/Machine/SetCompare.lean ====
section
/-! DEFINITION. Set-immediate and the compares (42_set_compare.md R140 to R145). A compare writes the three flags and
nothing else (R141). -/

namespace Sys2Proof.Machine

/-- Write the compare flags; only the compares do (10_state.md R28). -/
def State.setFlags (s : State) (f : Flags) : State := { s with flags := f }

/-- A compare of two registers (R141). -/
def compareRegs (f : Word → Word → Flags) (ra rb : Byte) (s : State) : Result :=
  withReg ra s fun a => withReg rb s fun b => .next (s.setFlags (f (s.reg a) (s.reg b)))

/-- `SETI rd, imm16`: the whole register is written (R140). -/
def execSeti (rd : Byte) (imm : BitVec 16) (s : State) : Result :=
  withReg rd s fun d => .next (s.setReg d (imm16 imm))

/-- `CMP ra, rb`: integer compare, signed or unsigned by `CMP_SIGNED` (R142, D12). -/
def execCmp (ra rb : Byte) (s : State) : Result := compareRegs (intFlags s.cfg.cmpSigned) ra rb s

/-- `FCMP ra, rb`: float compare (R143). -/
def execFcmp (ra rb : Byte) (s : State) : Result := compareRegs (floatFlags s.cfg) ra rb s

/-- `CMPI ra, imm16`: unsigned compare with the immediate (R144). -/
def execCmpi (ra : Byte) (imm : BitVec 16) (s : State) : Result :=
  withReg ra s fun a => .next (s.setFlags (intFlags false (s.reg a) (imm16 imm)))

end Sys2Proof.Machine
end

