-- ==== Sys2Proof/Machine/Syscall.lean ====
section
/-! DEFINITION. System calls (45_syscall.md R190 to R196): the block's only interface to the host during a run. -/

namespace Sys2Proof.Machine

/-- The five syscall kinds (R84). -/
inductive SysKind where
  | print | iprint | fprint | qmb | halt
deriving DecidableEq, Repr

/-- The kind a kind byte stands for under `SYSK`, if any (R89). -/
def kindOf (k : SysKinds) (b : Byte) : Option SysKind :=
  if b = k.halt then some .halt
  else if b = k.print then some .print
  else if b = k.iprint then some .iprint
  else if b = k.fprint then some .fprint
  else if b = k.qmb then some .qmb
  else none

/-- `PRINT`: emit the low byte as a character (R191). -/
def sysPrint (r : Byte) (s : State) : Result :=
  withReg r s fun i => .next (s.emit (.char ((s.reg i).setWidth 8)))

/-- `IPRINT`: emit the register, which the host shows as a signed decimal (R192). -/
def sysIprint (r : Byte) (s : State) : Result := withReg r s fun i => .next (s.emit (.int (s.reg i)))

/-- `FPRINT`: emit the register, which the host shows as a float (R193). -/
def sysFprint (r : Byte) (s : State) : Result := withReg r s fun i => .next (s.emit (.float (s.reg i)))

/-- `QMB`: the first byte address of the data region, into the register of byte 2 (R194, log 13). -/
def sysQmb (r : Byte) (s : State) : Result :=
  withReg r s fun d => .next (s.setReg d (BitVec.ofNat 32 s.codeSize))

/-- `HALT`: the step's increment still follows (R195, 30_encoding.md R95). -/
def sysHalt (s : State) : Result := .next { s with status := .halted }

/-- `SYSCALL KIND[, r]` (R190): the kind is checked before the register byte, which `HALT` does not read. -/
def execSyscall (kind r : Byte) (s : State) : Result :=
  match kindOf s.cfg.kinds kind with
  | some .print => sysPrint r s
  | some .iprint => sysIprint r s
  | some .fprint => sysFprint r s
  | some .qmb => sysQmb r s
  | some .halt => sysHalt s
  | none => raise (.invalidSyscall kind) s

end Sys2Proof.Machine
end

