-- ==== Sys2Proof/Machine/Dispatch.lean ====
section
/-! DEFINITION. Dispatch: exactly one handler, the one for the opcode (30_encoding.md R93). A handler answers the state
before the step's increment (R91, R94); a fault it raises is a next state whose status is `Faulted` (log 7). -/

namespace Sys2Proof.Machine

def exec (i : Instr) (s : State) : Host.Outcome State Fault Refusal :=
  match i with
  | .add rd ra rb => Sys2Proof.Machine.execAdd rd ra rb s
  | .sub rd ra rb => Sys2Proof.Machine.execSub rd ra rb s
  | .mul rd ra rb => Sys2Proof.Machine.execMul rd ra rb s
  | .and rd ra rb => Sys2Proof.Machine.execAnd rd ra rb s
  | .or rd ra rb => Sys2Proof.Machine.execOr rd ra rb s
  | .xor rd ra rb => Sys2Proof.Machine.execXor rd ra rb s
  | .addi rd ra imm => Sys2Proof.Machine.execAddi rd ra imm s
  | .subi rd ra imm => Sys2Proof.Machine.execSubi rd ra imm s
  | .muli rd ra imm => Sys2Proof.Machine.execMuli rd ra imm s
  | .andi rd ra imm => Sys2Proof.Machine.execAndi rd ra imm s
  | .ori rd ra imm => Sys2Proof.Machine.execOri rd ra imm s
  | .xori rd ra imm => Sys2Proof.Machine.execXori rd ra imm s
  | .not rd ra => Sys2Proof.Machine.execNot rd ra s
  | .shl rd ra amt => Sys2Proof.Machine.execShl rd ra amt s
  | .shr rd ra amt => Sys2Proof.Machine.execShr rd ra amt s
  | .fadd rd ra rb => Sys2Proof.Machine.execFadd rd ra rb s
  | .fsub rd ra rb => Sys2Proof.Machine.execFsub rd ra rb s
  | .fmul rd ra rb => Sys2Proof.Machine.execFmul rd ra rb s
  | .fdiv rd ra rb => Sys2Proof.Machine.execFdiv rd ra rb s
  | .seti rd imm => Sys2Proof.Machine.execSeti rd imm s
  | .cmp ra rb => Sys2Proof.Machine.execCmp ra rb s
  | .fcmp ra rb => Sys2Proof.Machine.execFcmp ra rb s
  | .cmpi ra imm => Sys2Proof.Machine.execCmpi ra imm s
  | .b off => Sys2Proof.Machine.execB off s
  | .beq off => Sys2Proof.Machine.execBeq off s
  | .bne off => Sys2Proof.Machine.execBne off s
  | .bgt off => Sys2Proof.Machine.execBgt off s
  | .blt off => Sys2Proof.Machine.execBlt off s
  | .bge off => Sys2Proof.Machine.execBge off s
  | .ble off => Sys2Proof.Machine.execBle off s
  | .bl off => Sys2Proof.Machine.execBl off s
  | .beql off => Sys2Proof.Machine.execBeql off s
  | .bnel off => Sys2Proof.Machine.execBnel off s
  | .bgtl off => Sys2Proof.Machine.execBgtl off s
  | .bltl off => Sys2Proof.Machine.execBltl off s
  | .bgel off => Sys2Proof.Machine.execBgel off s
  | .blel off => Sys2Proof.Machine.execBlel off s
  | .blr => Sys2Proof.Machine.execBlr s
  | .beqlr => Sys2Proof.Machine.execBeqlr s
  | .bnelr => Sys2Proof.Machine.execBnelr s
  | .bgtlr => Sys2Proof.Machine.execBgtlr s
  | .bltlr => Sys2Proof.Machine.execBltlr s
  | .bgelr => Sys2Proof.Machine.execBgelr s
  | .blelr => Sys2Proof.Machine.execBlelr s
  | .mflr rd => Sys2Proof.Machine.execMflr rd s
  | .mtlr rs => Sys2Proof.Machine.execMtlr rs s
  | .ldb rd rb off => Sys2Proof.Machine.execLdb rd rb off s
  | .ldh rd rb off => Sys2Proof.Machine.execLdh rd rb off s
  | .ldw rd rb off => Sys2Proof.Machine.execLdw rd rb off s
  | .stb rs rb off => Sys2Proof.Machine.execStb rs rb off s
  | .sth rs rb off => Sys2Proof.Machine.execSth rs rb off s
  | .stw rs rb off => Sys2Proof.Machine.execStw rs rb off s
  | .syscall kind r => Sys2Proof.Machine.execSyscall kind r s

end Sys2Proof.Machine
end

