-- ==== Sys2Proof/Machine/Stepping.lean ====
section
/-! DEFINITION. The parts of a step (30_encoding.md R91 to R97). -/

namespace Sys2Proof.Machine

/-- Fetch, check the opcode, dispatch, increment (R91); a fault ends the step at once (R97). -/
def stepRunning (s : State) : Result :=
  match fetchWord s with
  | .error f => raise f s
  | .ok w =>
    match decode s.cfg w with
    | .ok i => advanceResult (exec i s)
    | .error _ => raise (.invalidOpcode (opcodeByte w)) s

/-- Store a word at the index `pc` of the code region. Where `pc` lies outside it, as in `State.reset`, the word is
loaded as a one-word program and `pc` set to its start. The status becomes `Running`, and the memory is given the four
bytes an instruction needs if it had fewer. -/
def State.placeWord (s : State) (w : Word) : State :=
  let a := 4 * s.pc.toNat
  let room := { s with status := .running, cfg := { s.cfg with memSize := max s.cfg.memSize 4 } }
  if s.codeSize ≤ a ∨ room.cfg.memSize ≤ a then
    { room with pc := 0#32, codeWords := 1, mem := s.mem.writeAll (cellsFrom 0 (bytesOfWord w)) }
  else { room with mem := s.mem.writeAll (cellsFrom a (bytesOfWord w)) }

end Sys2Proof.Machine
end

