-- ==== Sys2Proof/Machine/Step.lean ====
section
/-! DEFINITION. The step (30_encoding.md R91) and the placing of one instruction where it fetches. -/

namespace Sys2Proof.Machine

/-- One step of the block, defined only while the run goes on (R33, R91). -/
def step (s : State) : Host.Outcome State Fault Refusal :=
  match s.status with
  | .running => stepRunning s
  | _ => .fault .notRunning

/-- `s` with the word of a table row stored where the step fetches: stands for the host's load of that program (log 3). -/
def State.withFetchWord (s : State) (nbits w : Nat) : State := s.placeWord (tableWord nbits w)

end Sys2Proof.Machine
end

