-- ==== Sys2Proof/Machine/Load.lean ====
section
/-! DEFINITION. The load that is the block's reset and boot (70_reset_and_hazards.md R230 to R234, 10_state.md R38). -/

namespace Sys2Proof.Machine

/-- The launch inputs of R38 that the spec leaves unspecified (D29): `x[1]` to `x[31]`, `lr` and the flags. Entry 0 of
`gpr` is not used: `x[0]` is `R0_INIT`. -/
structure Launch where
  gpr : Vector Word 32
  lr : Word
  flags : Flags
deriving DecidableEq, Repr

/-- DESIGN CHOICE (log 4): the launch values of `State.reset` and of 95_test_vectors.md section 0, all zero. -/
def referenceLaunch : Launch := ⟨Vector.replicate 32 0#32, 0#32, ⟨false, false, false⟩⟩

/-- The `INIT_DATA` cells that fall in the data region (R38, R46). -/
def dataCells (c : Config) (codeSize : Nat) : List Host.Cell :=
  c.initData.filter fun cell => decide (codeSize ≤ cell.1) && decide (cell.1 < c.memSize)

/-- Load a program image under a configuration (R230, R231): the image is whole words, most significant byte first, from
byte 0 on. An image that is not a whole number of words or is larger than the memory is refused: no run exists. -/
def loadImage (c : Config) (l : Launch) (image : List Byte) : Option State :=
  if image.length % 4 = 0 ∧ image.length ≤ c.memSize then
    some
      { cfg := c
        gpr := l.gpr.set 0 c.r0Init
        pc := 0#32
        lr := l.lr
        flags := l.flags
        status := .running
        mem := (Memory.writeAll [] (dataCells c image.length)).writeAll (cellsFrom 0 image)
        codeWords := image.length / 4
        out := []
        draws := 0 }
  else none

end Sys2Proof.Machine
end

