-- ==== Sys2Proof/Machine/Run.lean ====
section
/-! DEFINITION. The run loop (30_encoding.md R96, 60_exceptions.md R211, R220). -/

namespace Sys2Proof.Machine

/-- At most `k` steps, ending early where a step has no next state: the loop of R96 under a step budget. -/
def runSteps : Nat → State → State
  | 0, s => s
  | k + 1, s =>
    match step s with
    | .next t => runSteps k t
    | .fault _ => s
    | .refused _ => s

/-- A run under a host budget of `k` steps: a block still running after them is stopped (R211). -/
def runBudget (k : Nat) (s : State) : State := (runSteps k s).hostStop

end Sys2Proof.Machine
end

