-- ==== Sys2Proof/Safety.lean ====
section
/-! DEFINITION. The terms statements about runs use: the states a load and the steps can give, and what a run that
ends well is. -/

namespace Sys2Proof.Safety

open Sys2Proof.Machine

/-- The standing facts about a state: the parameters are as the spec asks, the code fits the memory (R230), the buffer
is in canonical form and lists no address outside the memory (R36). -/
abbrev Good (s : State) : Prop :=
  s.cfg.wf ∧ s.codeSize ≤ s.cfg.memSize ∧ s.mem.wf ∧ ∀ c ∈ s.mem, c.1 < s.cfg.memSize

/-- A register operand byte names a register (R16, R88). -/
abbrev Names (b : Byte) (i : Fin 32) : Prop := b.toNat = i.val

/-- `i` is the instruction whose word lies at `pc` in the code region (30_encoding.md R91, 20_memory.md R52). -/
def Fetches (s : State) (i : Instr) : Prop := ∃ w, fetchWord s = .ok w ∧ decode s.cfg w = .ok i

/-! ## What a step leaves as it was -/

/-- Every general register is unchanged. -/
def SameRegs (s t : State) : Prop := ∀ j, t.reg j = s.reg j

/-- Every general register but one is unchanged. -/
def SameRegsBut (d : Fin 32) (s t : State) : Prop := ∀ j, j ≠ d → t.reg j = s.reg j

/-- Every byte of memory is unchanged. -/
def SameBytes (s t : State) : Prop := ∀ a, t.mem.read a = s.mem.read a

/-- What no handler changes: the configuration and the program length (10_state.md R35, R43). -/
def SameLoad (s t : State) : Prop := t.cfg = s.cfg ∧ t.codeWords = s.codeWords

/-- Everything but the general registers and the draw count is unchanged. -/
def SameButRegs (s t : State) : Prop :=
  t.pc = s.pc ∧ t.lr = s.lr ∧ t.flags = s.flags ∧ t.status = s.status ∧ t.out = s.out ∧ SameBytes s t ∧ SameLoad s t

/-- The one effect is that register `d` holds `v`. -/
def WritesReg (d : Fin 32) (v : Word) (s t : State) : Prop :=
  t.reg d = v ∧ SameRegsBut d s t ∧ SameButRegs s t

/-- The run ended on the fault `f`, everything but memory as it was (60_exceptions.md R203). -/
def FaultsWith (f : ExecFault) (s t : State) : Prop :=
  t.status = .faulted f ∧ SameRegs s t ∧ t.pc = s.pc ∧ t.lr = s.lr ∧ t.flags = s.flags ∧ t.out = s.out ∧ SameLoad s t

/-- A byte address lies in the data region (20_memory.md R46, R55). -/
abbrev InData (s : State) (a : Word) : Prop := s.codeSize ≤ a.toNat ∧ a.toNat < s.cfg.memSize

/-- Byte `j` of the `n` that an `STH` or `STW` at `pc` would store passes its check, and so does every byte before it
(20_memory.md R56, R58): what a fault of that store leaves unspecified. -/
def PassedStoreByte (s : State) (rs rb off : Byte) (b : Fin 32) (n j : Nat) : Prop :=
  ((n = 2 ∧ Fetches s (.sth rs rb off)) ∨ (n = 4 ∧ Fetches s (.stw rs rb off))) ∧ j < n ∧
    ∀ k ≤ j, InData s (effAddr s b off + BitVec.ofNat 32 k)

/-! ## Runs -/

/-- The run has not ended on a fault (R202). -/
def NoFault (s : State) : Prop := s.status.isFaulted = false

/-- Within `k` steps the run ends `Halted` (R220). -/
def HaltsWithin (k : Nat) (s : State) : Prop := (runSteps k s).status = .halted

/-- No state of the first `k` steps is a fault. -/
def SafeFor (k : Nat) (s : State) : Prop := ∀ j ≤ k, NoFault (runSteps j s)

/-! ## Binary32 magnitudes -/

/-- The magnitude, in units of `2^-149`, of 31 magnitude bits below infinity's. -/
def magOf (p : Nat) : Nat := if p / 2 ^ 23 = 0 then p else (2 ^ 23 + p % 2 ^ 23) * 2 ^ (p / 2 ^ 23 - 1)

/-- The distance of two integers. -/
def dist (x y : Int) : Nat := (x - y).natAbs

end Sys2Proof.Safety
end

