-- ==== Sys2Proof/Certificates/Slice0/Obligations.lean ====
section
/-! DEFINITION. Statements about the coldcpu block for the provers, in the order of the spec's rules. A docstring names
the rules a statement formalises. -/

open Sys2Proof Sys2Proof.Machine Sys2Proof.Safety

/-! ## Encoding -/

/-- A few words written out from 30_encoding.md R71 to R80 decode to the instructions they stand for under the reference
numbering (log 2). -/
def Obligations.SpecWordsDecode : Prop :=
  decode referenceConfig 0x00030102 = .ok (.add 3 1 2) ∧ decode referenceConfig 0x0601020C = .ok (.addi 1 2 12) ∧
  decode referenceConfig 0x0C0102AB = .ok (.not 1 2) ∧ decode referenceConfig 0x12030102 = .ok (.fdiv 3 1 2) ∧
  decode referenceConfig 0x13000005 = .ok (.seti 0 5) ∧ decode referenceConfig 0x15010200 = .ok (.fcmp 1 2) ∧
  decode referenceConfig 0x19FFFFFE = .ok (.bne 0xFFFFFE) ∧ decode referenceConfig 0x1E000005 = .ok (.bl 5) ∧
  decode referenceConfig 0x2B000000 = .ok .blelr ∧ decode referenceConfig 0x2C050000 = .ok (.mflr 5) ∧
  decode referenceConfig 0x300302FC = .ok (.ldw 3 2 0xFC) ∧ decode referenceConfig 0x33010200 = .ok (.stw 1 2 0) ∧
  decode referenceConfig 0x34010300 = .ok (.syscall 1 3) ∧
  decode referenceConfig 0x35000000 = .error (.invalidOpcode 0x35)

/-- R109: encoding then decoding gives every live instruction back, whatever its operand bytes, under every numbering. -/
def Obligations.EncodeThenDecode : Prop :=
  ∀ (c : Config) (i : Instr), c.wf → i.live c = true → ∃ w, encode c i = some w ∧ decode c w = .ok i

/-- A word that decodes is, with its unused bytes made zero, the encoding of what it decodes to (R87, R92, R104). -/
def Obligations.DecodeThenEncode : Prop :=
  ∀ (c : Config) (i : Instr) (w : Word), c.wf → decode c w = .ok i →
    encode c i = some (w &&& i.mnemonic.format.usedMask)

/-- R87: the bits a format does not use change neither what a word decodes to nor what the step does with it, and the
encoder writes zero there. -/
def Obligations.UnusedBytesIgnored : Prop :=
  (∀ (c : Config) (m : Mnemonic) (w : Word), c.opcodes[(opcodeByte w).toNat]? = some m →
    decode c w = decode c (w &&& m.format.usedMask) ∧
    ∀ s : State, s.cfg = c → s.status = .running → fetchWord s = .ok w →
      step s = advanceResult (exec (cutOperands m (w &&& m.format.usedMask)) s)) ∧
  ∀ (c : Config) (i : Instr) (w : Word), encode c i = some w → w &&& i.mnemonic.format.usedMask = w

/-- R81: every opcode below `OPCODE_COUNT` is live, with the mnemonic `OPC` gives it, and no other opcode is. -/
def Obligations.OpcodesAreDense : Prop :=
  ∀ (c : Config) (w : Word),
    (∀ h : (opcodeByte w).toNat < c.opcodes.length,
      ∃ i, decode c w = .ok i ∧ i.mnemonic = c.opcodes[(opcodeByte w).toNat]) ∧
    (c.opcodes.length ≤ (opcodeByte w).toNat → decode c w = .error (.invalidOpcode (opcodeByte w)))

/-! ## The step -/

/-- R91, R95, R97: where the word at `pc` decodes to `i`, the step is `exec i` and then the increment, `HALT` included,
unless the handler raised a fault. -/
def Obligations.StepRunsDecodedInstruction : Prop :=
  ∀ (s : State) (i : Instr), s.status = .running → Fetches s i →
    step s = advanceResult (exec i s) ∧
    ∀ t, exec i s = .next t →
      (t.status.isFaulted = false → step s = .next { t with pc := t.pc + 1#32 }) ∧
      (t.status.isFaulted = true → step s = .next t)

/-- R52: a fetch at or beyond `codeSize` or `MEM_SIZE` raises `MemoryFault` with the unwrapped address. The second clause is
the model's choice of where the loaded word lies (log 14): any other fetch gives the big-endian word at `4 × pc` of the buffer.
R51 says of that layout that it "cannot be seen by a program" and names the big-endian one as the reference. -/
def Obligations.FetchChecksCodeRegion : Prop :=
  ∀ s : State, s.status = .running →
    ((s.codeSize ≤ 4 * s.pc.toNat ∨ s.cfg.memSize ≤ 4 * s.pc.toNat) →
      ∃ t, step s = .next t ∧ FaultsWith (.memoryFault (4 * s.pc.toNat) .fetch) s t ∧ SameBytes s t) ∧
    (4 * s.pc.toNat < s.codeSize → 4 * s.pc.toNat < s.cfg.memSize →
      fetchWord s = .ok (s.mem.read (4 * s.pc.toNat) ++ s.mem.read (4 * s.pc.toNat + 1) ++
        s.mem.read (4 * s.pc.toNat + 2) ++ s.mem.read (4 * s.pc.toNat + 3)))

/-- R85: executing a word whose opcode byte is at or above `OPCODE_COUNT` raises `InvalidOpcode` with that byte; in the
reference numbering these are the byte values from 53 on. -/
def Obligations.IllegalOpcodeRaises : Prop :=
  (∀ (s : State) (w : Word), s.status = .running → fetchWord s = .ok w →
    s.cfg.opcodes.length ≤ (opcodeByte w).toNat →
    ∃ t, step s = .next t ∧ FaultsWith (.invalidOpcode (opcodeByte w)) s t ∧ SameBytes s t) ∧
  referenceConfig.opcodes.length = 53

/-- R33, R202: a running block always has a next state, and no other status has one. -/
def Obligations.StepsExactlyWhileRunning : Prop :=
  ∀ s : State, (∃ t, step s = .next t) ↔ s.status = .running

/-- R25, R95: an instruction that is no branch (its format is neither Imm24 nor Empty) and does not fault moves `pc` on by
one, modulo `2^32`. -/
def Obligations.NonBranchAdvancesByOne : Prop :=
  ∀ (s t : State) (i : Instr), Fetches s i → i.mnemonic.format ≠ .imm24 → i.mnemonic.format ≠ .empty →
    step s = .next t → t.status.isFaulted = false → t.pc = s.pc + 1#32

/-! ## Integer arithmetic, logic, shifts -/

/-- R111 to R116: with three valid register bytes the integer register forms write the result to the register of byte 1 and
change nothing else; the sources may be the destination (R127). -/
def Obligations.IntegerRegistersResult : Prop :=
  ∀ (s : State) (rd ra rb : Byte) (d a b : Fin 32), Names rd d → Names ra a → Names rb b →
    ∀ p ∈ [(Instr.add rd ra rb, BitVec.ofNat 32 ((s.reg a).toNat + (s.reg b).toNat)),
        (Instr.sub rd ra rb, BitVec.ofInt 32 ((s.reg a).toNat - (s.reg b).toNat)),
        (Instr.mul rd ra rb, BitVec.ofNat 32 ((s.reg a).toNat * (s.reg b).toNat)),
        (Instr.and rd ra rb, s.reg a &&& s.reg b), (Instr.or rd ra rb, s.reg a ||| s.reg b),
        (Instr.xor rd ra rb, s.reg a ^^^ s.reg b)],
      ∃ t, exec p.1 s = .next t ∧ WritesReg d p.2 s t

/-- R117 to R122, R79: the immediate forms, the 8-bit immediate extended as `IMM8_EXT` says. -/
def Obligations.IntegerImmediateResult : Prop :=
  ∀ (s : State) (rd ra imm : Byte) (d a : Fin 32) (v : Word), Names rd d → Names ra a →
    ((s.cfg.imm8Ext = .zero ∧ v = BitVec.ofNat 32 imm.toNat) ∨
      (s.cfg.imm8Ext = .sign ∧ v = BitVec.ofInt 32 imm.toInt)) →
    ∀ p ∈ [(Instr.addi rd ra imm, BitVec.ofNat 32 ((s.reg a).toNat + v.toNat)),
        (Instr.subi rd ra imm, BitVec.ofInt 32 ((s.reg a).toNat - v.toNat)),
        (Instr.muli rd ra imm, BitVec.ofNat 32 ((s.reg a).toNat * v.toNat)),
        (Instr.andi rd ra imm, s.reg a &&& v), (Instr.ori rd ra imm, s.reg a ||| v),
        (Instr.xori rd ra imm, s.reg a ^^^ v)],
      ∃ t, exec p.1 s = .next t ∧ WritesReg d p.2 s t

/-- R123: every bit of the destination is the complement of the source's. -/
def Obligations.NotResult : Prop :=
  ∀ (s : State) (rd ra : Byte) (d a : Fin 32), Names rd d → Names ra a →
    ∃ t, exec (.not rd ra) s = .next t ∧ WritesReg d (BitVec.ofNat 32 (2 ^ 32 - 1 - (s.reg a).toNat)) s t

/-- R124, R125: a shift by fewer than 32 multiplies, or divides rounding down, by the power of two; a right shift reads its
operand as `SHR_KIND` says. -/
def Obligations.ShiftResult : Prop :=
  ∀ (s : State) (rd ra amt : Byte) (d a : Fin 32), Names rd d → Names ra a → amt.toNat < 32 →
    (∃ t, exec (.shl rd ra amt) s = .next t ∧
      WritesReg d (BitVec.ofNat 32 ((s.reg a).toNat * 2 ^ amt.toNat)) s t) ∧
    (s.cfg.shrKind = .logical → ∃ t, exec (.shr rd ra amt) s = .next t ∧
      WritesReg d (BitVec.ofNat 32 ((s.reg a).toNat / 2 ^ amt.toNat)) s t) ∧
    (s.cfg.shrKind = .arithmetic → ∃ t, exec (.shr rd ra amt) s = .next t ∧
      WritesReg d (BitVec.ofInt 32 ((s.reg a).toInt / (2 ^ amt.toNat : Nat))) s t)

/-- R124, R125: a shift by 32 or more does not fault: it writes some value to the destination and changes nothing else. -/
def Obligations.ShiftBeyondWidthRuns : Prop :=
  ∀ (s : State) (rd ra amt : Byte) (d a : Fin 32), Names rd d → Names ra a → 32 ≤ amt.toNat →
    ∀ i ∈ [Instr.shl rd ra amt, Instr.shr rd ra amt],
      ∃ t, exec i s = .next t ∧ SameRegsBut d s t ∧ SameButRegs s t

/-! ## Float arithmetic -/

/-- R130 to R136: the float instructions complete on every operand, write the register of byte 1 with the operation's value,
or some NaN where it has none, and change nothing else; no float condition faults. -/
def Obligations.FloatArithmeticCompletes : Prop :=
  ∀ (s : State) (rd ra rb : Byte) (d a b : Fin 32), Names rd d → Names ra a → Names rb b →
    ∀ p ∈ [(Instr.fadd rd ra rb, floatAdd (s.reg a) (s.reg b)), (Instr.fsub rd ra rb, floatSub (s.reg a) (s.reg b)),
        (Instr.fmul rd ra rb, floatMul (s.reg a) (s.reg b)), (Instr.fdiv rd ra rb, floatDiv (s.reg a) (s.reg b))],
      ∃ t, exec p.1 s = .next t ∧ SameRegsBut d s t ∧ SameButRegs s t ∧
        ((∃ v, p.2 = .value v ∧ t.reg d = v) ∨ (p.2 = .anyNan ∧ floatClass (t.reg d) = .nan))

/-- The rounding of R130(c): to the nearest binary32 magnitude, ties to even, and to infinity exactly from half a step
beyond the largest finite value on. The model takes IEEE 754 from general knowledge, as the spec does (log 12). -/
def Obligations.RoundingIsNearestEven : Prop :=
  ∀ num den : Nat, 0 < den →
    (den * ((2 ^ 25 - 1) * 2 ^ 253) ≤ 2 * num → roundMag num den = infBits) ∧
    (2 * num < den * ((2 ^ 25 - 1) * 2 ^ 253) →
      roundMag num den < infBits ∧
      ∀ p < infBits,
        Safety.dist num (den * magOf (roundMag num den)) ≤ Safety.dist num (den * magOf p) ∧
        (p ≠ roundMag num den →
          Safety.dist num (den * magOf (roundMag num den)) = Safety.dist num (den * magOf p) →
          roundMag num den % 2 = 0))

/-- R130(c), R131 to R134: on finite operands, with the exact sum, difference, product or quotient `num / den` in units of
`2^-149`, the instruction completes; its result is the infinity of the exact value's sign exactly from half a step beyond the
largest finite value on, and otherwise a finite value to which no finite binary32 value is nearer, of even significand where
a different one is as near. IEEE 754 is from general knowledge, as the spec takes it (log 12). -/
def Obligations.FloatResultIsNearest : Prop :=
  ∀ (s : State) (rd ra rb : Byte) (d a b : Fin 32) (sa sb : Bool) (ma mb : Nat),
    Names rd d → Names ra a → Names rb b →
    floatClass (s.reg a) = .fin sa ma → floatClass (s.reg b) = .fin sb mb →
    ∀ p ∈ [(Instr.fadd rd ra rb, withSign sa ma + withSign sb mb, 1),
        (Instr.fsub rd ra rb, withSign sa ma - withSign sb mb, 1),
        (Instr.fmul rd ra rb, withSign sa ma * withSign sb mb, 2 ^ 149),
        (Instr.fdiv rd ra rb, withSign (sa != sb) (ma * 2 ^ 149), mb)],
      0 < p.2.2 → ∃ t, exec p.1 s = .next t ∧
        (p.2.2 * ((2 ^ 25 - 1) * 2 ^ 253) ≤ 2 * p.2.1.natAbs → floatClass (t.reg d) = .inf (decide (p.2.1 < 0))) ∧
        (2 * p.2.1.natAbs < p.2.2 * ((2 ^ 25 - 1) * 2 ^ 253) →
          ∃ sr mr, floatClass (t.reg d) = .fin sr mr ∧
            ∀ (q : Word) (sq : Bool) (mq : Nat), floatClass q = .fin sq mq →
              Safety.dist p.2.1 ((p.2.2 : Nat) * withSign sr mr) ≤ Safety.dist p.2.1 ((p.2.2 : Nat) * withSign sq mq) ∧
              (withSign sq mq ≠ withSign sr mr →
                Safety.dist p.2.1 ((p.2.2 : Nat) * withSign sr mr) = Safety.dist p.2.1 ((p.2.2 : Nat) * withSign sq mq) →
                (t.reg d).getLsbD 0 = false))

/-- R131 to R135, the special operands of addition and subtraction: a NaN operand or opposite infinities give a NaN, an
infinity stays, and an exact zero is `-0` only from two negative zeros (or `-0 - +0`). -/
def Obligations.FloatSumSpecialResults : Prop :=
  ∀ (s : State) (rd ra rb : Byte) (d a b : Fin 32), Names rd d → Names ra a → Names rb b →
    ∀ p ∈ [(Instr.fadd rd ra rb, false), (Instr.fsub rd ra rb, true)],
      ∃ t, exec p.1 s = .next t ∧
        ((floatClass (s.reg a) = .nan ∨ floatClass (s.reg b) = .nan) → floatClass (t.reg d) = .nan) ∧
        (∀ x y, floatClass (s.reg a) = .inf x → floatClass (s.reg b) = .inf y →
          floatClass (t.reg d) = if x = (y ^^ p.2) then .inf x else .nan) ∧
        (∀ x y n, floatClass (s.reg a) = .inf x → floatClass (s.reg b) = .fin y n → floatClass (t.reg d) = .inf x) ∧
        (∀ x m y, floatClass (s.reg a) = .fin x m → floatClass (s.reg b) = .inf y →
          floatClass (t.reg d) = .inf (y ^^ p.2)) ∧
        (∀ x m y n, floatClass (s.reg a) = .fin x m → floatClass (s.reg b) = .fin y n →
          withSign x m + withSign (y ^^ p.2) n = 0 → floatClass (t.reg d) = .fin (x && (y ^^ p.2)) 0)

/-- R133 to R135, the special operands of multiplication and division: the results of NaNs, infinities and zeros, and of
every other result the sign, the exclusive or of the operands'. Division by zero does not fault. -/
def Obligations.FloatProductSpecialResults : Prop :=
  ∀ (s : State) (rd ra rb : Byte) (d a b : Fin 32), Names rd d → Names ra a → Names rb b →
    (∃ t, exec (.fmul rd ra rb) s = .next t ∧
      ((floatClass (s.reg a) = .nan ∨ floatClass (s.reg b) = .nan) → floatClass (t.reg d) = .nan) ∧
      (∀ x y, floatClass (s.reg a) = .inf x → floatClass (s.reg b) = .inf y → floatClass (t.reg d) = .inf (x != y)) ∧
      (∀ x y n, floatClass (s.reg a) = .inf x → floatClass (s.reg b) = .fin y n →
        floatClass (t.reg d) = if n = 0 then .nan else .inf (x != y)) ∧
      (∀ x m y, floatClass (s.reg a) = .fin x m → floatClass (s.reg b) = .inf y →
        floatClass (t.reg d) = if m = 0 then .nan else .inf (x != y)) ∧
      (∀ x m y n, floatClass (s.reg a) = .fin x m → floatClass (s.reg b) = .fin y n → m * n = 0 →
        floatClass (t.reg d) = .fin (x != y) 0) ∧
      (floatClass (t.reg d) ≠ .nan → floatSign (t.reg d) = (floatSign (s.reg a) != floatSign (s.reg b)))) ∧
    (∃ t, exec (.fdiv rd ra rb) s = .next t ∧
      ((floatClass (s.reg a) = .nan ∨ floatClass (s.reg b) = .nan) → floatClass (t.reg d) = .nan) ∧
      (∀ x y, floatClass (s.reg a) = .inf x → floatClass (s.reg b) = .inf y → floatClass (t.reg d) = .nan) ∧
      (∀ x y n, floatClass (s.reg a) = .inf x → floatClass (s.reg b) = .fin y n →
        floatClass (t.reg d) = .inf (x != y)) ∧
      (∀ x m y, floatClass (s.reg a) = .fin x m → floatClass (s.reg b) = .inf y →
        floatClass (t.reg d) = .fin (x != y) 0) ∧
      (∀ x m y, floatClass (s.reg a) = .fin x m → floatClass (s.reg b) = .fin y 0 →
        floatClass (t.reg d) = if m = 0 then .nan else .inf (x != y)) ∧
      (∀ x y n, floatClass (s.reg a) = .fin x 0 → floatClass (s.reg b) = .fin y n → n ≠ 0 →
        floatClass (t.reg d) = .fin (x != y) 0) ∧
      (floatClass (t.reg d) ≠ .nan → floatSign (t.reg d) = (floatSign (s.reg a) != floatSign (s.reg b))))

/-! ## Set-immediate and compares -/

/-- R140: `SETI` writes the zero-extended immediate to the whole register. -/
def Obligations.SetImmediateResult : Prop :=
  ∀ (s : State) (rd : Byte) (imm : BitVec 16) (d : Fin 32), Names rd d →
    ∃ t, exec (.seti rd imm) s = .next t ∧ WritesReg d (BitVec.ofNat 32 imm.toNat) s t

/-- R141, R142, R144: `CMP` and `CMPI` write all three flags from the order of their operands, signed or unsigned as
`CMP_SIGNED` says for `CMP` and unsigned for `CMPI`, and change nothing else. -/
def Obligations.IntegerCompareResult : Prop :=
  ∀ (s : State) (ra rb : Byte) (imm : BitVec 16) (a b : Fin 32), Names ra a → Names rb b →
    ∀ p ∈ [(Instr.cmp ra rb,
          if s.cfg.cmpSigned then ((s.reg a).toInt, (s.reg b).toInt)
          else (((s.reg a).toNat : Int), ((s.reg b).toNat : Int))),
        (Instr.cmpi ra imm, (((s.reg a).toNat : Int), (imm.toNat : Int)))],
      ∃ t, exec p.1 s = .next t ∧
        (t.flags.gt = true ↔ p.2.1 > p.2.2) ∧ (t.flags.lt = true ↔ p.2.1 < p.2.2) ∧
        (t.flags.eq = true ↔ p.2.1 = p.2.2) ∧
        SameRegs s t ∧ t.pc = s.pc ∧ t.lr = s.lr ∧ t.status = s.status ∧ t.out = s.out ∧ SameBytes s t ∧ SameLoad s t

/-- R141, R143: `FCMP` writes `FCMP_UNORDERED` where an operand is a NaN and otherwise the flags of the binary32 order, in
which the two zeros are equal and an infinity is beyond every finite value; nothing else changes (log 12). -/
def Obligations.FloatCompareResult : Prop :=
  ∀ (s : State) (ra rb : Byte) (a b : Fin 32), Names ra a → Names rb b →
    ∃ t, exec (.fcmp ra rb) s = .next t ∧
      SameRegs s t ∧ t.pc = s.pc ∧ t.lr = s.lr ∧ t.status = s.status ∧ t.out = s.out ∧ SameBytes s t ∧ SameLoad s t ∧
      ((floatClass (s.reg a) = .nan ∨ floatClass (s.reg b) = .nan) → t.flags = s.cfg.fcmpUnordered) ∧
      (∀ x m y n, floatClass (s.reg a) = .fin x m → floatClass (s.reg b) = .fin y n →
        (t.flags.gt = true ↔ withSign x m > withSign y n) ∧ (t.flags.lt = true ↔ withSign x m < withSign y n) ∧
        (t.flags.eq = true ↔ withSign x m = withSign y n)) ∧
      (∀ x y n, floatClass (s.reg a) = .inf x → floatClass (s.reg b) = .fin y n → t.flags = ⟨!x, x, false⟩) ∧
      (∀ x m y, floatClass (s.reg a) = .fin x m → floatClass (s.reg b) = .inf y → t.flags = ⟨y, !y, false⟩) ∧
      (∀ x y, floatClass (s.reg a) = .inf x → floatClass (s.reg b) = .inf y →
        t.flags = ⟨!x && y, x && !y, x == y⟩)

/-- R145: after `CMP`, `CMPI` and an ordered `FCMP` exactly one flag is set; after an unordered `FCMP` the flags are
`FCMP_UNORDERED`; before any compare they are whatever the launch gave, which may be any pattern. -/
def Obligations.CompareTrichotomy : Prop :=
  (∀ (s t : State) (ra rb : Byte) (imm : BitVec 16) (a b : Fin 32), Names ra a → Names rb b →
    ((exec (.cmp ra rb) s = .next t ∨ exec (.cmpi ra imm) s = .next t ∨
        (exec (.fcmp ra rb) s = .next t ∧ floatClass (s.reg a) ≠ .nan ∧ floatClass (s.reg b) ≠ .nan)) →
      t.flags = ⟨true, false, false⟩ ∨ t.flags = ⟨false, true, false⟩ ∨ t.flags = ⟨false, false, true⟩) ∧
    ((exec (.fcmp ra rb) s = .next t ∧ (floatClass (s.reg a) = .nan ∨ floatClass (s.reg b) = .nan)) →
      t.flags = s.cfg.fcmpUnordered)) ∧
  ∀ (c : Config) (l : Launch) (f : Flags) (s : State) (image : List Byte),
    loadImage c { l with flags := f } image = some s → s.flags = f

/-! ## Branches and the link register -/

/-- R150 to R158: a relative branch moves `pc` so that the step's increment brings it to `p + off` where its condition holds,
and leaves it for `p + 1` where not; it changes nothing else. -/
def Obligations.RelativeBranchResult : Prop :=
  ∀ (s : State) (off : BitVec 24),
    ∀ p ∈ [(Instr.b off, true), (Instr.beq off, s.flags.eq), (Instr.bne off, !s.flags.eq), (Instr.bgt off, s.flags.gt),
        (Instr.blt off, s.flags.lt), (Instr.bge off, s.flags.gt || s.flags.eq),
        (Instr.ble off, s.flags.lt || s.flags.eq)],
      ∃ t, exec p.1 s = .next t ∧
        t.pc + 1#32 = (if p.2 then BitVec.ofInt 32 (s.pc.toNat + off.toInt) else s.pc + 1#32) ∧
        SameRegs s t ∧ t.lr = s.lr ∧ t.flags = s.flags ∧ t.status = s.status ∧ t.out = s.out ∧ SameBytes s t ∧
        SameLoad s t

/-- R159 to R166: a taken link branch also sets `lr` to its own word index; one not taken does so exactly under
`LINK_IF_NOT_TAKEN`. -/
def Obligations.LinkBranchResult : Prop :=
  ∀ (s : State) (off : BitVec 24),
    ∀ p ∈ [(Instr.bl off, true), (Instr.beql off, s.flags.eq), (Instr.bnel off, !s.flags.eq),
        (Instr.bgtl off, s.flags.gt), (Instr.bltl off, s.flags.lt), (Instr.bgel off, s.flags.gt || s.flags.eq),
        (Instr.blel off, s.flags.lt || s.flags.eq)],
      ∃ t, exec p.1 s = .next t ∧
        t.pc + 1#32 = (if p.2 then BitVec.ofInt 32 (s.pc.toNat + off.toInt) else s.pc + 1#32) ∧
        t.lr = (if p.2 || s.cfg.linkIfNotTaken then s.pc else s.lr) ∧
        SameRegs s t ∧ t.flags = s.flags ∧ t.status = s.status ∧ t.out = s.out ∧ SameBytes s t ∧ SameLoad s t

/-- R167 to R174: a `B*LR` branch goes to `lr + 1` where its condition holds and to `p + 1` where not, and never writes
`lr`. -/
def Obligations.ReturnBranchResult : Prop :=
  ∀ s : State,
    ∀ p ∈ [(Instr.blr, true), (Instr.beqlr, s.flags.eq), (Instr.bnelr, !s.flags.eq), (Instr.bgtlr, s.flags.gt),
        (Instr.bltlr, s.flags.lt), (Instr.bgelr, s.flags.gt || s.flags.eq),
        (Instr.blelr, s.flags.lt || s.flags.eq)],
      ∃ t, exec p.1 s = .next t ∧
        t.pc + 1#32 = (if p.2 then s.lr + 1#32 else s.pc + 1#32) ∧ t.lr = s.lr ∧
        SameRegs s t ∧ t.flags = s.flags ∧ t.status = s.status ∧ t.out = s.out ∧ SameBytes s t ∧ SameLoad s t

/-- R175, R176: `MFLR` copies `lr` to a register, `MTLR` a register to `lr`; nothing else changes. -/
def Obligations.LinkRegisterMoves : Prop :=
  ∀ (s : State) (r : Byte) (i : Fin 32), Names r i →
    (∃ t, exec (.mflr r) s = .next t ∧ WritesReg i s.lr s t) ∧
    (∃ t, exec (.mtlr r) s = .next t ∧ t.lr = s.reg i ∧ SameRegs s t ∧ t.pc = s.pc ∧ t.flags = s.flags ∧
      t.status = s.status ∧ t.out = s.out ∧ SameBytes s t ∧ SameLoad s t)

/-- R159, R167, R178: a `BL` at word `p`, and a `BLR` in any later running state that still holds the `lr` it set, make the
instruction after the call the next one. -/
def Obligations.ReturnGoesAfterCall : Prop :=
  ∀ (s t u v : State) (off : BitVec 24), s.status = .running → Fetches s (.bl off) → step s = .next t →
    u.status = .running → Fetches u .blr → u.lr = t.lr → step u = .next v → v.pc = s.pc + 1#32

/-! ## Loads and stores -/

/-- R180 to R183, R54, R57: the address is the base plus the signed offset, modulo `2^32`; a load whose bytes all lie in the
data region writes the big-endian value of the bytes from that address on, a byte or halfword extended as `LOAD_EXT` says, and
changes nothing else. -/
def Obligations.LoadResult : Prop :=
  ∀ (s : State) (rd rb off : Byte) (d b : Fin 32), Names rd d → Names rb b →
    effAddr s b off = BitVec.ofInt 32 ((s.reg b).toNat + off.toInt) ∧
    (InData s (effAddr s b off) →
      ∃ t, exec (.ldb rd rb off) s = .next t ∧
        WritesReg d (match s.cfg.loadExt with
          | .zero => (s.mem.read (effAddr s b off).toNat).setWidth 32
          | .sign => (s.mem.read (effAddr s b off).toNat).signExtend 32) s t) ∧
    (InData s (effAddr s b off) → InData s (effAddr s b off + 1) →
      ∃ t, exec (.ldh rd rb off) s = .next t ∧
        WritesReg d (match s.cfg.loadExt with
          | .zero => (s.mem.read (effAddr s b off).toNat ++ s.mem.read (effAddr s b off + 1).toNat).setWidth 32
          | .sign => (s.mem.read (effAddr s b off).toNat ++ s.mem.read (effAddr s b off + 1).toNat).signExtend 32)
          s t) ∧
    (InData s (effAddr s b off) → InData s (effAddr s b off + 1) → InData s (effAddr s b off + 2) →
      InData s (effAddr s b off + 3) →
      ∃ t, exec (.ldw rd rb off) s = .next t ∧
        WritesReg d (s.mem.read (effAddr s b off).toNat ++ s.mem.read (effAddr s b off + 1).toNat ++
          s.mem.read (effAddr s b off + 2).toNat ++ s.mem.read (effAddr s b off + 3).toNat) s t)

/-- R55, R57, R205: a load with a byte outside the data region raises `MemoryFault` with the first such address and writes
nothing. -/
def Obligations.LoadFaultsAtFirstBadByte : Prop :=
  ∀ (s : State) (rd rb off : Byte) (d b : Fin 32), Names rd d → Names rb b →
    ∀ p ∈ [(Instr.ldb rd rb off, 1), (Instr.ldh rd rb off, 2), (Instr.ldw rd rb off, 4)],
      ∀ i < p.2, ¬ InData s (effAddr s b off + BitVec.ofNat 32 i) →
        (∀ j < i, InData s (effAddr s b off + BitVec.ofNat 32 j)) →
        ∃ t, exec p.1 s = .next t ∧ SameBytes s t ∧
          FaultsWith (.memoryFault (effAddr s b off + BitVec.ofNat 32 i).toNat .load) s t

/-- R56, R180, R184 to R186: the address is the base plus the signed offset, modulo `2^32`; a store whose bytes all lie in the
data region writes the low bytes of the register, high byte first, from that address on; every other byte and everything else
is unchanged. -/
def Obligations.StoreResult : Prop :=
  ∀ (s : State) (rs rb off : Byte) (r b : Fin 32), Names rs r → Names rb b →
    effAddr s b off = BitVec.ofInt 32 ((s.reg b).toNat + off.toInt) ∧
    ∀ p ∈ [(Instr.stb rs rb off, 1), (Instr.sth rs rb off, 2), (Instr.stw rs rb off, 4)],
      (∀ i < p.2, InData s (effAddr s b off + BitVec.ofNat 32 i)) →
      ∃ t, exec p.1 s = .next t ∧
        (∀ i < p.2, t.mem.read (effAddr s b off + BitVec.ofNat 32 i).toNat =
          BitVec.ofNat 8 ((s.reg r).toNat / 256 ^ (p.2 - 1 - i))) ∧
        (∀ a, (∀ i < p.2, a ≠ (effAddr s b off + BitVec.ofNat 32 i).toNat) → t.mem.read a = s.mem.read a) ∧
        SameRegs s t ∧ t.pc = s.pc ∧ t.lr = s.lr ∧ t.flags = s.flags ∧ t.status = s.status ∧ t.out = s.out ∧
        SameLoad s t

/-- R55, R56, R58, R205: a store with a byte outside the data region raises `MemoryFault` with the first such address; each
byte before it is old or new, and no other byte changes. -/
def Obligations.StoreFaultsAtFirstBadByte : Prop :=
  ∀ (s : State) (rs rb off : Byte) (r b : Fin 32), Names rs r → Names rb b →
    ∀ p ∈ [(Instr.stb rs rb off, 1), (Instr.sth rs rb off, 2), (Instr.stw rs rb off, 4)],
      ∀ i < p.2, ¬ InData s (effAddr s b off + BitVec.ofNat 32 i) →
        (∀ j < i, InData s (effAddr s b off + BitVec.ofNat 32 j)) →
        ∃ t, exec p.1 s = .next t ∧
          FaultsWith (.memoryFault (effAddr s b off + BitVec.ofNat 32 i).toNat .store) s t ∧
          (∀ j < i, t.mem.read (effAddr s b off + BitVec.ofNat 32 j).toNat =
              s.mem.read (effAddr s b off + BitVec.ofNat 32 j).toNat ∨
            t.mem.read (effAddr s b off + BitVec.ofNat 32 j).toNat =
              BitVec.ofNat 8 ((s.reg r).toNat / 256 ^ (p.2 - 1 - j))) ∧
          (∀ a, (∀ j < i, a ≠ (effAddr s b off + BitVec.ofNat 32 j).toNat) → t.mem.read a = s.mem.read a)

/-- R60: after a word store at `a`, byte reads see its bytes in big-endian order, a halfword read at `a + 1` its middle, and
a word read the word. -/
def Obligations.MixedWidthReadsSeeBigEndian : Prop :=
  ∀ (s t : State) (rs rb off : Byte) (r b : Fin 32), Names rs r → Names rb b →
    exec (.stw rs rb off) s = .next t → t.status.isFaulted = false →
    memRead t (effAddr s b off) 1 = .ok ((s.reg r).extractLsb' 24 8) ∧
    memRead t (effAddr s b off + 3) 1 = .ok ((s.reg r).extractLsb' 0 8) ∧
    memRead t (effAddr s b off + 1) 2 = .ok ((s.reg r).extractLsb' 8 16) ∧
    memRead t (effAddr s b off) 4 = .ok (s.reg r)

/-- R64, R238: a word store followed at once by a word load from the same address gives the stored value. -/
def Obligations.LoadSeesLastStore : Prop :=
  ∀ (s t u : State) (rs rb rd off : Byte) (r b d : Fin 32), Names rs r → Names rb b → Names rd d →
    s.status = .running → t.status = .running → Fetches s (.stw rs rb off) → step s = .next t →
    Fetches t (.ldw rd rb off) → step t = .next u → u.status = .running ∧ u.reg d = s.reg r

/-! ## System calls -/

/-- R190 to R193, R41: the printing calls append their event and change nothing else. -/
def Obligations.PrintCallsResult : Prop :=
  ∀ (s : State) (r : Byte) (i : Fin 32), s.cfg.kinds.all.Nodup → Names r i →
    ∀ p ∈ [(Instr.syscall s.cfg.kinds.print r, Event.char ((s.reg i).extractLsb' 0 8)),
        (Instr.syscall s.cfg.kinds.iprint r, Event.int (s.reg i)),
        (Instr.syscall s.cfg.kinds.fprint r, Event.float (s.reg i))],
      ∃ t, exec p.1 s = .next t ∧ t.out = s.out ++ [p.2] ∧ SameRegs s t ∧ t.pc = s.pc ∧ t.lr = s.lr ∧
        t.flags = s.flags ∧ t.status = s.status ∧ SameBytes s t ∧ SameLoad s t

/-- R190, R194: `QMB` writes `codeSize` to the register of byte 2 and changes nothing else. That it is byte 2 follows R194
against R22's general sentence (log 13); that a `codeSize` of `2^32` or more is written modulo `2^32` is the model's choice
(log 15). -/
def Obligations.QueryMemoryBeginResult : Prop :=
  ∀ (s : State) (r : Byte) (d : Fin 32), s.cfg.kinds.all.Nodup → Names r d →
    ∃ t, exec (.syscall s.cfg.kinds.qmb r) s = .next t ∧ WritesReg d (BitVec.ofNat 32 (4 * s.codeWords)) s t

/-- R190, R195: `HALT` reads no register byte, sets the status and changes nothing else; its step leaves `pc` at `h + 1`, and
nothing runs after it. -/
def Obligations.HaltResult : Prop :=
  ∀ (s : State) (r : Byte),
    (∃ t, exec (.syscall s.cfg.kinds.halt r) s = .next t ∧ t.status = .halted ∧ SameRegs s t ∧ t.pc = s.pc ∧
      t.lr = s.lr ∧ t.flags = s.flags ∧ t.out = s.out ∧ SameBytes s t ∧ SameLoad s t) ∧
    (s.status = .running → Fetches s (.syscall s.cfg.kinds.halt r) →
      ∃ t, step s = .next t ∧ t.status = .halted ∧ t.pc = s.pc + 1#32 ∧ ∀ k, runSteps k t = t)

/-- R89, R205: a kind byte that is no `SYSK` value raises `InvalidSyscall` with it, whatever the register byte. -/
def Obligations.UnknownKindFaults : Prop :=
  ∀ (s : State) (kind r : Byte), kind ∉ s.cfg.kinds.all →
    ∃ t, exec (.syscall kind r) s = .next t ∧ FaultsWith (.invalidSyscall kind) s t ∧ SameBytes s t

/-! ## Faults -/

/-- R88, R205: the first register byte of 32 or more, in the order B1, B2, B3, raises `InvalidRegister` with it before any
write, in every instruction that has register bytes. -/
def Obligations.FirstBadRegisterByteFaults : Prop :=
  ∀ (s : State) (i : Instr) (before after : List Byte) (b : Byte), i.kindKnown s.cfg = true →
    i.regBytes s.cfg = before ++ b :: after → (∀ x ∈ before, x.toNat < 32) → 32 ≤ b.toNat →
    ∃ t, exec i s = .next t ∧ FaultsWith (.invalidRegister b) s t ∧ SameBytes s t

/-- R203, R97, R58: when a step faults, registers, `pc`, `lr`, flags, output, configuration and code length are as before.
Memory is too, except the bytes of a faulting `STH` or `STW` that passed their check before the one that failed: each of them
is old or the byte the store would have written. -/
def Obligations.FaultsArePrecise : Prop :=
  ∀ (s t : State) (f : ExecFault), step s = .next t → t.status = .faulted f →
    FaultsWith f s t ∧
    (∀ a, (∀ rs rb off b n j, Names rb b → PassedStoreByte s rs rb off b n j →
          a ≠ (effAddr s b off + BitVec.ofNat 32 j).toNat) →
      t.mem.read a = s.mem.read a) ∧
    ∀ rs rb off r b n j, Names rs r → Names rb b → PassedStoreByte s rs rb off b n j →
      t.mem.read (effAddr s b off + BitVec.ofNat 32 j).toNat = s.mem.read (effAddr s b off + BitVec.ofNat 32 j).toNat ∨
      t.mem.read (effAddr s b off + BitVec.ofNat 32 j).toNat = BitVec.ofNat 8 ((s.reg r).toNat / 256 ^ (n - 1 - j))

/-- R200: what a fault records has the width the rule gives it: a fetch address below `2^34`, a data address below `2^32`, an
opcode at or above the count, a register byte of 32 or more, a kind that is no `SYSK` value. -/
def Obligations.FaultInformation : Prop :=
  ∀ (s t : State) (f : ExecFault), step s = .next t → t.status = .faulted f →
    match f with
    | .memoryFault a .fetch => a = 4 * s.pc.toNat ∧ a < 2 ^ 34 ∧ (s.codeSize ≤ a ∨ s.cfg.memSize ≤ a)
    | .memoryFault a _ => a < 2 ^ 32 ∧ (a < s.codeSize ∨ s.cfg.memSize ≤ a)
    | .invalidOpcode op => s.cfg.opcodes.length ≤ op.toNat
    | .invalidRegister b => 32 ≤ b.toNat
    | .invalidSyscall k => k ∉ s.cfg.kinds.all

/-! ## Whole-machine rules -/

/-- R35, R43, R36: every step keeps the standing facts: the parameters, the code inside the memory, the buffer in canonical
form with no address outside the memory. -/
def Obligations.StepKeepsGood : Prop :=
  ∀ s t : State, Good s → step s = .next t → Good t

/-- The reset state meets the standing facts (its configuration is the model's choice, log 1). -/
def Obligations.ResetIsGood : Prop := Good State.reset

/-- R48, R66, R35, R43: no step changes the configuration, the code length or a byte of the code region, so that every fetch
at an index of a code region inside the memory gives the same word before and after. -/
def Obligations.CodeIsImmutable : Prop :=
  ∀ s t : State, step s = .next t →
    t.cfg = s.cfg ∧ t.codeWords = s.codeWords ∧ (∀ a < s.codeSize, t.mem.read a = s.mem.read a) ∧
    ∀ p : Word, fetchWord { t with pc := p } = fetchWord { s with pc := p }

/-- R34: a step enters `Halted` only by `SYSCALL HALT` and `Stopped` never, and no step leaves any status but `Running`. -/
def Obligations.HaltedOnlyByHaltCall : Prop :=
  ∀ s t : State, step s = .next t →
    (t.status = .halted → ∃ r, Fetches s (.syscall s.cfg.kinds.halt r)) ∧ t.status ≠ .stopped ∧ s.status = .running

/-- R28: only `CMP`, `FCMP` and `CMPI` write the flags, and each computes all three from scratch: what they were before has no
part in what they become. -/
def Obligations.FlagsWrittenOnlyByCompares : Prop :=
  (∀ s t : State, step s = .next t → t.flags ≠ s.flags →
    ∃ ra rb imm, Fetches s (.cmp ra rb) ∨ Fetches s (.fcmp ra rb) ∨ Fetches s (.cmpi ra imm)) ∧
  ∀ (s : State) (f : Flags) (ra rb : Byte) (imm : BitVec 16) (a b : Fin 32), Names ra a → Names rb b →
    ∀ i ∈ [Instr.cmp ra rb, .fcmp ra rb, .cmpi ra imm],
      ∃ t u, exec i s = .next t ∧ exec i { s with flags := f } = .next u ∧ t.flags = u.flags

/-- R30: only link branches and `MTLR` write `lr`, a link branch writes its own index, and only a taken one does unless
`LINK_IF_NOT_TAKEN` holds. -/
def Obligations.LinkRegisterWriters : Prop :=
  ∀ (s t : State) (i : Instr), Fetches s i → step s = .next t → t.lr ≠ s.lr →
    (∃ rs r, i = .mtlr rs ∧ Names rs r ∧ t.lr = s.reg r) ∨
    (t.lr = s.pc ∧ ∃ off taken, (i, taken) ∈ [(Instr.bl off, true), (Instr.beql off, s.flags.eq),
        (Instr.bnel off, !s.flags.eq), (Instr.bgtl off, s.flags.gt), (Instr.bltl off, s.flags.lt),
        (Instr.bgel off, s.flags.gt || s.flags.eq), (Instr.blel off, s.flags.lt || s.flags.eq)] ∧
      (taken = true ∨ s.cfg.linkIfNotTaken = true))

/-- R22 and, for `QMB`, R194 (log 13): a step changes at most the one register that the destination byte of an instruction of
R22's list names. -/
def Obligations.RegisterWriters : Prop :=
  ∀ (s t : State) (i : Instr) (j : Fin 32), Fetches s i → step s = .next t → t.reg j ≠ s.reg j →
    (∃ ra rb, i ∈ [Instr.add (BitVec.ofNat 8 j) ra rb, .sub (BitVec.ofNat 8 j) ra rb, .mul (BitVec.ofNat 8 j) ra rb,
      .and (BitVec.ofNat 8 j) ra rb, .or (BitVec.ofNat 8 j) ra rb, .xor (BitVec.ofNat 8 j) ra rb,
      .addi (BitVec.ofNat 8 j) ra rb, .subi (BitVec.ofNat 8 j) ra rb, .muli (BitVec.ofNat 8 j) ra rb,
      .andi (BitVec.ofNat 8 j) ra rb, .ori (BitVec.ofNat 8 j) ra rb, .xori (BitVec.ofNat 8 j) ra rb,
      .not (BitVec.ofNat 8 j) ra, .shl (BitVec.ofNat 8 j) ra rb, .shr (BitVec.ofNat 8 j) ra rb,
      .fadd (BitVec.ofNat 8 j) ra rb, .fsub (BitVec.ofNat 8 j) ra rb, .fmul (BitVec.ofNat 8 j) ra rb,
      .fdiv (BitVec.ofNat 8 j) ra rb, .mflr (BitVec.ofNat 8 j), .ldb (BitVec.ofNat 8 j) ra rb,
      .ldh (BitVec.ofNat 8 j) ra rb, .ldw (BitVec.ofNat 8 j) ra rb]) ∨
    (∃ imm, i = .seti (BitVec.ofNat 8 j) imm) ∨ i = .syscall s.cfg.kinds.qmb (BitVec.ofNat 8 j)

/-- R44, R47, R49: only stores change memory, and only bytes of the data region. -/
def Obligations.MemoryWrittenOnlyByStores : Prop :=
  ∀ (s t : State) (a : Nat), step s = .next t → t.mem.read a ≠ s.mem.read a →
    s.codeSize ≤ a ∧ a < s.cfg.memSize ∧
    ∃ rs rb off, Fetches s (.stb rs rb off) ∨ Fetches s (.sth rs rb off) ∨ Fetches s (.stw rs rb off)

/-- R41, R196: a step keeps the output history and appends at most one event, and only a printing call appends one. -/
def Obligations.OutputOnlyGrows : Prop :=
  ∀ s t : State, step s = .next t →
    t.out = s.out ∨ ∃ e kind r, t.out = s.out ++ [e] ∧ Fetches s (.syscall kind r) ∧
      kind ∈ [s.cfg.kinds.print, s.cfg.kinds.iprint, s.cfg.kinds.fprint]

/-- R34, R213: an ended run stays as it is, and along a run from a good state every state is good. -/
def Obligations.RunsKeepGoodAndStopWhenEnded : Prop :=
  ∀ (k : Nat) (s : State), (s.status ≠ .running → runSteps k s = s) ∧ (Good s → Good (runSteps k s)) ∧
    ∀ j, runSteps (k + j) s = runSteps j (runSteps k s)

/-- The model's canonical form of memory (log 6): two canonical buffers that read the same everywhere are the same list. -/
def Obligations.CanonicalMemoriesAreEqual : Prop :=
  ∀ m n : Memory, m.wf → n.wf → (∀ a, m.read a = n.read a) → m = n

/-! ## Load, reset and the host -/

/-- R38, R230, R231: a load of whole words that fit the memory gives the launch state: `pc` 0, `Running`, `x[0]` the
`R0_INIT`, the other registers, `lr` and flags the launch inputs, no output, the image's words in the code region and
`INIT_DATA` in the data region. Any other image is refused. The model's choices in it: byte `a` of the image lies at byte `a` of
the buffer (log 14; R51 calls the layout invisible to a program), a byte `INIT_DATA` does not list is zero (log 6), and an
`INIT_DATA` that lists an address twice is left out by the hypothesis (log 27). -/
def Obligations.LoadGivesLaunchState : Prop :=
  ∀ (c : Config) (l : Launch) (image : List Byte), (c.initData.map Prod.fst).Nodup →
    ((image.length % 4 ≠ 0 ∨ c.memSize < image.length) → loadImage c l image = none) ∧
    (image.length % 4 = 0 → image.length ≤ c.memSize →
      ∃ s, loadImage c l image = some s ∧ s.cfg = c ∧ s.pc = 0#32 ∧ s.status = .running ∧ s.out = [] ∧
        s.codeSize = image.length ∧ 4 * s.codeWords = image.length ∧
        s.reg 0 = c.r0Init ∧ (∀ j, j ≠ 0 → s.reg j = l.gpr[j.val]) ∧ s.lr = l.lr ∧ s.flags = l.flags ∧
        (∀ (a : Nat) (h : a < image.length), s.mem.read a = image[a]) ∧
        (∀ cell ∈ c.initData, image.length ≤ cell.1 → cell.1 < c.memSize → s.mem.read cell.1 = cell.2) ∧
        (∀ a, image.length ≤ a → (∀ cell ∈ c.initData, cell.1 ≠ a) → s.mem.read a = 0#8) ∧
        (c.wf → Good s))

/-- R234: an empty image is a valid load, all of its memory is data, and the first step after it raises
`MemoryFault(0, Fetch)` at `pc` 0. -/
def Obligations.EmptyImageFaults : Prop :=
  ∀ (c : Config) (l : Launch), ∃ s t, loadImage c l [] = some s ∧ s.codeSize = 0 ∧
    (∀ a, InData s a ↔ a.toNat < c.memSize) ∧ step s = .next t ∧
    FaultsWith (.memoryFault 0 .fetch) s t ∧ t.pc = 0#32

/-- R38, R231: the model's reset state is the launch state of the empty program, with what the spec states of one: `pc` 0,
`Running`, no output, `codeSize` 0, `x[0]` the `R0_INIT`, every data byte that of `INIT_DATA`. The empty program is the
model's choice (log 3), and so are the reference parameters (log 1), among them an `INIT_DATA` of zeros (log 6) and the
`R0_INIT` (log 5). That the state is the load with `referenceLaunch` also fixes `x[1..31]` and `lr` at zero and the flags clear,
which R38 leaves unspecified: the model's choice of launch values (log 4). -/
def Obligations.ResetValues : Prop :=
  State.reset.pc = 0#32 ∧ State.reset.status = .running ∧ State.reset.out = [] ∧ State.reset.codeSize = 0 ∧
  State.reset.reg 0 = State.reset.cfg.r0Init ∧
  (∀ a, State.reset.codeSize ≤ a → a < State.reset.cfg.memSize →
    State.reset.mem.read a = (Memory.writeAll [] State.reset.cfg.initData).read a ∧ State.reset.mem.read a = 0#8) ∧
  loadImage State.reset.cfg referenceLaunch [] = some State.reset

/-- R211: a host stop turns a running block's status to `Stopped` and changes nothing else; an ended run it leaves as it
is. -/
def Obligations.HostStopResult : Prop :=
  ∀ s : State,
    (s.status = .running → s.hostStop = { s with status := .stopped } ∧ ∀ t, step s.hostStop ≠ .next t) ∧
    (s.status ≠ .running → s.hostStop = s)
end

