-- ==== Sys2Proof/Laws/Decode.lean ====
section
/-! SUPPORT. The fields of an encoded word are the operands it was built from, and the bytes of a word give it back. -/

namespace Sys2Proof

theorem extract_high {m n : Nat} (x : BitVec m) (y : BitVec n) : (x ++ y).extractLsb' n m = x := by
  apply BitVec.eq_of_getLsbD_eq
  intro i hi
  simp [BitVec.getLsbD_append, hi]

theorem extract_low {m n : Nat} (x : BitVec m) (y : BitVec n) (k w : Nat) (h : k + w ≤ n) :
    (x ++ y).extractLsb' k w = y.extractLsb' k w := by
  apply BitVec.eq_of_getLsbD_eq
  intro i hi
  have : k + i < n := by omega
  simp [BitVec.getLsbD_append, hi, this]

theorem extract_above {m n : Nat} (x : BitVec m) (y : BitVec n) (k w : Nat) (h : n ≤ k) :
    (x ++ y).extractLsb' k w = x.extractLsb' (k - n) w := by
  apply BitVec.eq_of_getLsbD_eq
  intro i hi
  have h1 : ¬ k + i < n := by omega
  have h2 : k - n + i = k + i - n := by omega
  simp [BitVec.getLsbD_append, hi, h1, h2]

theorem extract_all {n : Nat} (x : BitVec n) : x.extractLsb' 0 n = x := by
  apply BitVec.eq_of_getLsbD_eq
  intro i hi
  simp [hi]

/-! ## The fields of `op ++ operand bits` -/

theorem opcodeByte_append (op : Byte) (x : BitVec 24) : opcodeByte (op ++ x) = op := extract_high op x

theorem offField24_append (op : Byte) (x : BitVec 24) : offField24 (op ++ x) = x :=
  (extract_low op x 0 24 (by omega)).trans (extract_all x)

theorem immField16_append (op b1 : Byte) (x : BitVec 16) : immField16 (op ++ (b1 ++ x : BitVec 24)) = x :=
  (extract_low op (b1 ++ x : BitVec 24) 0 16 (by omega)).trans
    ((extract_low b1 x 0 16 (by omega)).trans (extract_all x))

theorem operandByte1_append (op b1 : Byte) (x : BitVec 16) : operandByte 1 (op ++ (b1 ++ x : BitVec 24)) = b1 :=
  (extract_low op (b1 ++ x : BitVec 24) 16 8 (by omega)).trans (extract_high b1 x)

theorem operandByte1_bytes (op b1 b2 b3 : Byte) : operandByte 1 (op ++ (b1 ++ b2 ++ b3 : BitVec 24)) = b1 :=
  (extract_low op (b1 ++ b2 ++ b3 : BitVec 24) 16 8 (by omega)).trans
    ((extract_above (b1 ++ b2) b3 16 8 (by omega)).trans (extract_high b1 b2))

theorem operandByte2_bytes (op b1 b2 b3 : Byte) : operandByte 2 (op ++ (b1 ++ b2 ++ b3 : BitVec 24)) = b2 :=
  (extract_low op (b1 ++ b2 ++ b3 : BitVec 24) 8 8 (by omega)).trans
    ((extract_above (b1 ++ b2) b3 8 8 (by omega)).trans ((extract_low b1 b2 0 8 (by omega)).trans (extract_all b2)))

theorem operandByte3_bytes (op b1 b2 b3 : Byte) : operandByte 3 (op ++ (b1 ++ b2 ++ b3 : BitVec 24)) = b3 :=
  (extract_low op (b1 ++ b2 ++ b3 : BitVec 24) 0 8 (by omega)).trans
    ((extract_low (b1 ++ b2) b3 0 8 (by omega)).trans (extract_all b3))

/-! ## Reading back all the operands of a format -/

theorem read_three (k : Byte → Byte → Byte → Instr) (op b1 b2 b3 : Byte) :
    k (operandByte 1 (op ++ (b1 ++ b2 ++ b3 : BitVec 24))) (operandByte 2 (op ++ (b1 ++ b2 ++ b3 : BitVec 24)))
      (operandByte 3 (op ++ (b1 ++ b2 ++ b3 : BitVec 24))) = k b1 b2 b3 := by
  rw [operandByte1_bytes, operandByte2_bytes, operandByte3_bytes]

theorem read_two (k : Byte → Byte → Instr) (op b1 b2 b3 : Byte) :
    k (operandByte 1 (op ++ (b1 ++ b2 ++ b3 : BitVec 24))) (operandByte 2 (op ++ (b1 ++ b2 ++ b3 : BitVec 24))) =
      k b1 b2 := by
  rw [operandByte1_bytes, operandByte2_bytes]

theorem read_one (k : Byte → Instr) (op b1 : Byte) (x : BitVec 16) :
    k (operandByte 1 (op ++ (b1 ++ x : BitVec 24))) = k b1 := by
  rw [operandByte1_append]

theorem read_imm16 (k : Byte → BitVec 16 → Instr) (op b1 : Byte) (x : BitVec 16) :
    k (operandByte 1 (op ++ (b1 ++ x : BitVec 24))) (immField16 (op ++ (b1 ++ x : BitVec 24))) = k b1 x := by
  rw [operandByte1_append, immField16_append]

theorem read_off24 (k : BitVec 24 → Instr) (op : Byte) (x : BitVec 24) : k (offField24 (op ++ x)) = k x := by
  rw [offField24_append]

/-! ## Words and their bytes -/

/-- The four bytes of a word, put together again, are the word (20_memory.md R51). -/
theorem wordOfBytes_bytes (w : Word) :
    wordOfBytes (operandByte 0 w) (operandByte 1 w) (operandByte 2 w) (operandByte 3 w) = w := by
  apply BitVec.eq_of_getLsbD_eq
  intro i hi
  simp only [wordOfBytes, operandByte, BitVec.getLsbD_append, BitVec.getLsbD_extractLsb']
  by_cases h3 : i < 8
  · simp [h3]
  · by_cases h2 : i - 8 < 8
    · have e : 8 + (i - 8) = i := by omega
      simp [h3, h2, e]
    · by_cases h1 : i - 8 - 8 < 8
      · have e : 16 + (i - 8 - 8) = i := by omega
        simp [h3, h2, h1, e]
      · have h0 : i - 8 - 8 - 8 < 8 := by omega
        have e : 24 + (i - 8 - 8 - 8) = i := by omega
        simp [h3, h2, h1, h0, e]

/-! ## The opcode map -/

/-- `OPC(m)` and its inverse agree (30_encoding.md R80, R93). -/
theorem opcodeOf_index {c : Config} (hc : c.wf) {m : Mnemonic} {op : Byte} (h : opcodeOf c m = some op) :
    c.opcodes[op.toNat]? = some m := by
  simp only [opcodeOf, Option.map_eq_some_iff, List.idxOf?_eq_some_iff] at h
  obtain ⟨k, ⟨hk, hm, -⟩, rfl⟩ := h
  have : k < 2 ^ 8 := Nat.lt_of_lt_of_le hk hc.2.1
  rw [BitVec.toNat_ofNat, Nat.mod_eq_of_lt this, List.getElem?_eq_getElem hk, hm]

theorem cutOperands_mnemonic (m : Mnemonic) (w : Word) : (cutOperands m w).mnemonic = m := by
  cases m <;> rfl

end Sys2Proof
end

