-- ==== Sys2Proof/Laws/Memory.lean ====
section
/-! SUPPORT. The laws of the byte buffer: reads after writes, and that every operation keeps the canonical form. -/

namespace Sys2Proof.Machine

theorem Memory.read_insertCell (x : Nat) (v : Byte) (m : Memory) (hx : ∀ c ∈ m, c.1 ≠ x) (y : Nat) :
    (Memory.insertCell x v m).read y = if y = x then v else m.read y := by
  induction m with
  | nil =>
    by_cases h : y = x
    · simp [Memory.insertCell, Memory.read, h]
    · simp [Memory.insertCell, Memory.read, h, Ne.symm h]
  | cons c m ih =>
    obtain ⟨a, b⟩ := c
    have hax : a ≠ x := hx (a, b) (by simp)
    have ih' := ih fun c hc => hx c (by simp [hc])
    unfold Memory.insertCell
    split
    · by_cases h : y = x
      · simp [Memory.read, h]
      · simp [Memory.read, h, Ne.symm h]
    · by_cases hay : a = y
      · subst hay; simp [Memory.read, hax]
      · simp [Memory.read, hay, ih']

theorem Memory.read_filter_ne (x y : Nat) (m : Memory) (h : y ≠ x) :
    Memory.read (m.filter fun c => c.1 ≠ x) y = m.read y := by
  induction m with
  | nil => rfl
  | cons c m ih =>
    obtain ⟨a, b⟩ := c
    by_cases hax : a = x
    · subst hax
      simp only [ne_eq, not_true_eq_false, decide_false, Bool.false_eq_true, not_false_eq_true,
        List.filter_cons_of_neg, Memory.read, Ne.symm h, if_false]
      exact ih
    · rw [List.filter_cons_of_pos (by simpa using hax)]
      simp only [Memory.read]
      split
      · rfl
      · exact ih

theorem Memory.read_of_not_listed (m : Memory) (x : Nat) (h : ∀ c ∈ m, c.1 ≠ x) :
    m.read x = Memory.unlistedByte := by
  induction m with
  | nil => rfl
  | cons c m ih =>
    obtain ⟨a, b⟩ := c
    have hax : a ≠ x := h (a, b) (by simp)
    simp only [Memory.read, hax, if_false]
    exact ih fun c hc => h c (by simp [hc])

/-- Reading after a write: the written byte there, every other byte as before. It holds of every list of cells. -/
theorem Memory.read_write (m : Memory) (x y : Nat) (v : Byte) :
    (m.write x v).read y = if y = x then v else m.read y := by
  have hx : ∀ c ∈ m.filter (fun c => c.1 ≠ x), c.1 ≠ x := fun c hc => by simpa using (List.mem_filter.mp hc).2
  unfold Memory.write
  by_cases hv : v = Memory.unlistedByte
  · simp only [hv, if_true]
    by_cases h : y = x
    · subst h
      rw [Memory.read_of_not_listed _ _ hx]; simp
    · rw [Memory.read_filter_ne x y m h]; simp [h]
  · simp only [hv, if_false]
    rw [Memory.read_insertCell x v _ hx]
    by_cases h : y = x
    · simp [h]
    · rw [Memory.read_filter_ne x y m h]

@[simp] theorem Memory.read_write_same (m : Memory) (x : Nat) (v : Byte) : (m.write x v).read x = v := by
  simp [Memory.read_write]

theorem Memory.read_write_ne (m : Memory) {x y : Nat} (v : Byte) (h : y ≠ x) : (m.write x v).read y = m.read y := by
  simp [Memory.read_write, h]

/-- The cells a write leaves: the written one, or one that was there before. -/
theorem Memory.mem_insertCell {x : Nat} {v : Byte} {m : Memory} {c : Host.Cell} (h : c ∈ Memory.insertCell x v m) :
    c = (x, v) ∨ c ∈ m := by
  induction m with
  | nil => simpa [Memory.insertCell] using h
  | cons d m ih =>
    obtain ⟨a, b⟩ := d
    unfold Memory.insertCell at h
    split at h
    · simpa using h
    · rcases List.mem_cons.mp h with h | h
      · exact .inr (by simp [h])
      · rcases ih h with h | h
        · exact .inl h
        · exact .inr (by simp [h])

theorem Memory.mem_write {m : Memory} {x : Nat} {v : Byte} {c : Host.Cell} (h : c ∈ m.write x v) :
    c = (x, v) ∨ c ∈ m := by
  unfold Memory.write at h
  split at h
  · exact .inr (List.mem_filter.mp h).1
  · rcases Memory.mem_insertCell h with h | h
    · exact .inl h
    · exact .inr (List.mem_filter.mp h).1

theorem Memory.pairwise_insertCell (x : Nat) (v : Byte) (m : Memory) (hx : ∀ c ∈ m, c.1 ≠ x)
    (h : (m.map Prod.fst).Pairwise (· < ·)) : ((Memory.insertCell x v m).map Prod.fst).Pairwise (· < ·) := by
  induction m with
  | nil => simp [Memory.insertCell]
  | cons d m ih =>
    obtain ⟨a, b⟩ := d
    rw [List.map_cons, List.pairwise_cons] at h
    unfold Memory.insertCell
    split
    · rename_i hlt
      rw [List.map_cons, List.pairwise_cons, List.map_cons, List.pairwise_cons]
      refine ⟨fun y hy => ?_, h⟩
      rcases List.mem_cons.mp hy with rfl | hy
      · exact hlt
      · exact Nat.lt_trans hlt (h.1 y hy)
    · rename_i hge
      have hax : a ≠ x := hx (a, b) (by simp)
      rw [List.map_cons, List.pairwise_cons]
      refine ⟨fun y hy => ?_, ih (fun c hc => hx c (by simp [hc])) h.2⟩
      obtain ⟨c, hc, rfl⟩ := List.mem_map.mp hy
      rcases Memory.mem_insertCell hc with rfl | hc
      · show a < x
        omega
      · exact h.1 _ (List.mem_map.mpr ⟨c, hc, rfl⟩)

/-- A write keeps the canonical form. -/
theorem Memory.wf_write {m : Memory} (h : m.wf) (x : Nat) (v : Byte) : (m.write x v).wf := by
  have hx : ∀ c ∈ m.filter (fun c => c.1 ≠ x), c.1 ≠ x := fun c hc => by simpa using (List.mem_filter.mp hc).2
  have hp : ((m.filter fun c => c.1 ≠ x).map Prod.fst).Pairwise (· < ·) :=
    h.1.sublist (List.filter_sublist.map _)
  refine ⟨?_, fun c hc => ?_⟩
  · unfold Memory.write
    split
    · exact hp
    · exact Memory.pairwise_insertCell x v _ hx hp
  · by_cases hv : v = Memory.unlistedByte
    · unfold Memory.write at hc
      simp only [hv, if_true] at hc
      exact h.2 c (List.mem_filter.mp hc).1
    · rcases Memory.mem_write hc with rfl | hc
      · exact hv
      · exact h.2 c hc

theorem Memory.writeAll_nil (m : Memory) : m.writeAll [] = m := rfl

theorem Memory.writeAll_cons (m : Memory) (c : Host.Cell) (cs : List Host.Cell) :
    m.writeAll (c :: cs) = (m.write c.1 c.2).writeAll cs := rfl

/-- Writing cells keeps the canonical form. -/
theorem Memory.wf_writeAll {m : Memory} (h : m.wf) (cs : List Host.Cell) : (m.writeAll cs).wf := by
  induction cs generalizing m with
  | nil => exact h
  | cons c cs ih => exact ih (Memory.wf_write h c.1 c.2)

/-- Writing cells leaves every byte outside their addresses. -/
theorem Memory.read_writeAll_of_not_mem (m : Memory) (cs : List Host.Cell) (y : Nat) (h : ∀ c ∈ cs, c.1 ≠ y) :
    (m.writeAll cs).read y = m.read y := by
  induction cs generalizing m with
  | nil => rfl
  | cons c cs ih =>
    rw [Memory.writeAll_cons, ih _ fun d hd => h d (by simp [hd])]
    exact Memory.read_write_ne _ _ (Ne.symm (h c (by simp)))

/-- Writing cells at different addresses: each address reads its own byte. -/
theorem Memory.read_writeAll_of_mem (m : Memory) (cs : List Host.Cell) (hn : (cs.map Prod.fst).Nodup)
    {c : Host.Cell} (hc : c ∈ cs) : (m.writeAll cs).read c.1 = c.2 := by
  induction cs generalizing m with
  | nil => cases hc
  | cons d cs ih =>
    rw [List.map_cons, List.nodup_cons] at hn
    rw [Memory.writeAll_cons]
    rcases List.mem_cons.mp hc with rfl | hc
    · rw [Memory.read_writeAll_of_not_mem]
      · simp
      · intro e he heq
        exact hn.1 (heq ▸ List.mem_map.mpr ⟨e, he, rfl⟩)
    · exact ih _ hn.2 hc

theorem Memory.mem_writeAll {m : Memory} {cs : List Host.Cell} {c : Host.Cell} (h : c ∈ m.writeAll cs) :
    c ∈ cs ∨ c ∈ m := by
  induction cs generalizing m with
  | nil => exact .inr h
  | cons d cs ih =>
    rcases ih h with h | h
    · exact .inl (by simp [h])
    · rcases Memory.mem_write h with h | h
      · exact .inl (by simp [h])
      · exact .inr h

/-- An address whose cells all carry one byte reads as before or as that byte. -/
theorem Memory.read_writeAll_or (m : Memory) (cs : List Host.Cell) (a : Nat) (v : Byte) (h : ∀ c ∈ cs, c.1 = a → c.2 = v) :
    (m.writeAll cs).read a = m.read a ∨ (m.writeAll cs).read a = v := by
  induction cs generalizing m with
  | nil => exact .inl rfl
  | cons c cs ih =>
    rw [Memory.writeAll_cons]
    rcases ih (m.write c.1 c.2) fun d hd => h d (List.mem_cons_of_mem _ hd) with h1 | h1
    · rw [h1, Memory.read_write]
      split
      · rename_i heq
        exact .inr (h c List.mem_cons_self (by simpa using heq.symm))
      · exact .inl rfl
    · exact .inr h1

/-- The empty buffer is canonical. -/
theorem Memory.wf_nil : Memory.wf [] := ⟨List.Pairwise.nil, fun _ h => nomatch h⟩

end Sys2Proof.Machine
end

