-- ==== Sys2Proof/Laws/State.lean ====
section
/-! SUPPORT. One lemma per field per named update of the state, so that no later proof unfolds a record update. -/

namespace Sys2Proof.Machine

@[simp] theorem State.setReg_cfg (s : State) (i : Fin 32) (v : Word) : (s.setReg i v).cfg = s.cfg := rfl
@[simp] theorem State.setReg_gpr (s : State) (i : Fin 32) (v : Word) : (s.setReg i v).gpr = s.gpr.set i.val v := rfl
@[simp] theorem State.setReg_pc (s : State) (i : Fin 32) (v : Word) : (s.setReg i v).pc = s.pc := rfl
@[simp] theorem State.setReg_lr (s : State) (i : Fin 32) (v : Word) : (s.setReg i v).lr = s.lr := rfl
@[simp] theorem State.setReg_flags (s : State) (i : Fin 32) (v : Word) : (s.setReg i v).flags = s.flags := rfl
@[simp] theorem State.setReg_status (s : State) (i : Fin 32) (v : Word) : (s.setReg i v).status = s.status := rfl
@[simp] theorem State.setReg_mem (s : State) (i : Fin 32) (v : Word) : (s.setReg i v).mem = s.mem := rfl
@[simp] theorem State.setReg_codeWords (s : State) (i : Fin 32) (v : Word) : (s.setReg i v).codeWords = s.codeWords := rfl
@[simp] theorem State.setReg_out (s : State) (i : Fin 32) (v : Word) : (s.setReg i v).out = s.out := rfl
@[simp] theorem State.setReg_draws (s : State) (i : Fin 32) (v : Word) : (s.setReg i v).draws = s.draws := rfl

@[simp] theorem State.setFlags_cfg (s : State) (f : Flags) : (s.setFlags f).cfg = s.cfg := rfl
@[simp] theorem State.setFlags_gpr (s : State) (f : Flags) : (s.setFlags f).gpr = s.gpr := rfl
@[simp] theorem State.setFlags_pc (s : State) (f : Flags) : (s.setFlags f).pc = s.pc := rfl
@[simp] theorem State.setFlags_lr (s : State) (f : Flags) : (s.setFlags f).lr = s.lr := rfl
@[simp] theorem State.setFlags_flags (s : State) (f : Flags) : (s.setFlags f).flags = f := rfl
@[simp] theorem State.setFlags_status (s : State) (f : Flags) : (s.setFlags f).status = s.status := rfl
@[simp] theorem State.setFlags_mem (s : State) (f : Flags) : (s.setFlags f).mem = s.mem := rfl
@[simp] theorem State.setFlags_codeWords (s : State) (f : Flags) : (s.setFlags f).codeWords = s.codeWords := rfl
@[simp] theorem State.setFlags_out (s : State) (f : Flags) : (s.setFlags f).out = s.out := rfl
@[simp] theorem State.setFlags_draws (s : State) (f : Flags) : (s.setFlags f).draws = s.draws := rfl

@[simp] theorem State.emit_cfg (s : State) (e : Event) : (s.emit e).cfg = s.cfg := rfl
@[simp] theorem State.emit_gpr (s : State) (e : Event) : (s.emit e).gpr = s.gpr := rfl
@[simp] theorem State.emit_pc (s : State) (e : Event) : (s.emit e).pc = s.pc := rfl
@[simp] theorem State.emit_lr (s : State) (e : Event) : (s.emit e).lr = s.lr := rfl
@[simp] theorem State.emit_flags (s : State) (e : Event) : (s.emit e).flags = s.flags := rfl
@[simp] theorem State.emit_status (s : State) (e : Event) : (s.emit e).status = s.status := rfl
@[simp] theorem State.emit_mem (s : State) (e : Event) : (s.emit e).mem = s.mem := rfl
@[simp] theorem State.emit_codeWords (s : State) (e : Event) : (s.emit e).codeWords = s.codeWords := rfl
@[simp] theorem State.emit_out (s : State) (e : Event) : (s.emit e).out = s.out ++ [e] := rfl
@[simp] theorem State.emit_draws (s : State) (e : Event) : (s.emit e).draws = s.draws := rfl

@[simp] theorem State.raised_cfg (s : State) (f : ExecFault) : (State.raised f s).cfg = s.cfg := rfl
@[simp] theorem State.raised_gpr (s : State) (f : ExecFault) : (State.raised f s).gpr = s.gpr := rfl
@[simp] theorem State.raised_pc (s : State) (f : ExecFault) : (State.raised f s).pc = s.pc := rfl
@[simp] theorem State.raised_lr (s : State) (f : ExecFault) : (State.raised f s).lr = s.lr := rfl
@[simp] theorem State.raised_flags (s : State) (f : ExecFault) : (State.raised f s).flags = s.flags := rfl
@[simp] theorem State.raised_status (s : State) (f : ExecFault) : (State.raised f s).status = .faulted f := rfl
@[simp] theorem State.raised_mem (s : State) (f : ExecFault) : (State.raised f s).mem = s.mem := rfl
@[simp] theorem State.raised_codeWords (s : State) (f : ExecFault) : (State.raised f s).codeWords = s.codeWords := rfl
@[simp] theorem State.raised_out (s : State) (f : ExecFault) : (State.raised f s).out = s.out := rfl
@[simp] theorem State.raised_draws (s : State) (f : ExecFault) : (State.raised f s).draws = s.draws := rfl

@[simp] theorem State.tickDraw_cfg (s : State) : (s.tickDraw).cfg = s.cfg := rfl
@[simp] theorem State.tickDraw_gpr (s : State) : (s.tickDraw).gpr = s.gpr := rfl
@[simp] theorem State.tickDraw_pc (s : State) : (s.tickDraw).pc = s.pc := rfl
@[simp] theorem State.tickDraw_lr (s : State) : (s.tickDraw).lr = s.lr := rfl
@[simp] theorem State.tickDraw_flags (s : State) : (s.tickDraw).flags = s.flags := rfl
@[simp] theorem State.tickDraw_status (s : State) : (s.tickDraw).status = s.status := rfl
@[simp] theorem State.tickDraw_mem (s : State) : (s.tickDraw).mem = s.mem := rfl
@[simp] theorem State.tickDraw_codeWords (s : State) : (s.tickDraw).codeWords = s.codeWords := rfl
@[simp] theorem State.tickDraw_out (s : State) : (s.tickDraw).out = s.out := rfl
@[simp] theorem State.tickDraw_draws (s : State) : (s.tickDraw).draws = s.draws + 1 := rfl

@[simp] theorem State.setFlags_reg (s : State) (f : Flags) (j : Fin 32) : (s.setFlags f).reg j = s.reg j := rfl
@[simp] theorem State.setFlags_codeSize (s : State) (f : Flags) : (s.setFlags f).codeSize = s.codeSize := rfl
@[simp] theorem State.emit_reg (s : State) (e : Event) (j : Fin 32) : (s.emit e).reg j = s.reg j := rfl
@[simp] theorem State.emit_codeSize (s : State) (e : Event) : (s.emit e).codeSize = s.codeSize := rfl
@[simp] theorem State.raised_reg (s : State) (f : ExecFault) (j : Fin 32) : (State.raised f s).reg j = s.reg j := rfl
@[simp] theorem State.raised_codeSize (s : State) (f : ExecFault) : (State.raised f s).codeSize = s.codeSize := rfl
@[simp] theorem State.tickDraw_reg (s : State) (j : Fin 32) : s.tickDraw.reg j = s.reg j := rfl
@[simp] theorem State.tickDraw_codeSize (s : State) : s.tickDraw.codeSize = s.codeSize := rfl
@[simp] theorem State.setReg_codeSize (s : State) (i : Fin 32) (v : Word) : (s.setReg i v).codeSize = s.codeSize := rfl

/-- Reading a register after a write: the written value there, the old one elsewhere (10_state.md R20). -/
theorem State.reg_setReg (s : State) (i j : Fin 32) (v : Word) :
    (s.setReg i v).reg j = if i = j then v else s.reg j := by
  simp [State.reg, State.setReg, Vector.getElem_set, Fin.ext_iff]

@[simp] theorem State.reg_setReg_same (s : State) (i : Fin 32) (v : Word) : (s.setReg i v).reg i = v := by
  simp [State.reg_setReg]

theorem State.reg_setReg_ne (s : State) {i j : Fin 32} (v : Word) (h : j ≠ i) :
    (s.setReg i v).reg j = s.reg j := by
  simp [State.reg_setReg, Ne.symm h]

@[simp] theorem State.setComputed_cfg (s : State) (d : Fin 32) (c : Computed) : (s.setComputed d c).cfg = s.cfg := by
  cases c <;> rfl
@[simp] theorem State.setComputed_pc (s : State) (d : Fin 32) (c : Computed) : (s.setComputed d c).pc = s.pc := by
  cases c <;> rfl
@[simp] theorem State.setComputed_lr (s : State) (d : Fin 32) (c : Computed) : (s.setComputed d c).lr = s.lr := by
  cases c <;> rfl
@[simp] theorem State.setComputed_flags (s : State) (d : Fin 32) (c : Computed) : (s.setComputed d c).flags = s.flags := by
  cases c <;> rfl
@[simp] theorem State.setComputed_status (s : State) (d : Fin 32) (c : Computed) : (s.setComputed d c).status = s.status := by
  cases c <;> rfl
@[simp] theorem State.setComputed_mem (s : State) (d : Fin 32) (c : Computed) : (s.setComputed d c).mem = s.mem := by
  cases c <;> rfl
@[simp] theorem State.setComputed_codeWords (s : State) (d : Fin 32) (c : Computed) : (s.setComputed d c).codeWords = s.codeWords := by
  cases c <;> rfl
@[simp] theorem State.setComputed_out (s : State) (d : Fin 32) (c : Computed) : (s.setComputed d c).out = s.out := by
  cases c <;> rfl
@[simp] theorem State.setComputed_codeSize (s : State) (d : Fin 32) (c : Computed) :
    (s.setComputed d c).codeSize = s.codeSize := by
  cases c <;> rfl

/-- What `setComputed` writes: the value, any word, or any NaN. -/
theorem State.setComputed_reg_same (s : State) (d : Fin 32) (c : Computed) :
    (s.setComputed d c).reg d =
      match c with
      | .value v => v
      | .anyWord => Config.draw s.draws
      | .anyNan => nanOfDraw (Config.draw s.draws) := by
  cases c <;> simp [State.setComputed]

theorem State.setComputed_reg_ne (s : State) {d j : Fin 32} (c : Computed) (h : j ≠ d) :
    (s.setComputed d c).reg j = s.reg j := by
  cases c <;> simp [State.setComputed, State.reg_setReg_ne _ _ h]

@[simp] theorem State.advance_cfg (s : State) : s.advance.cfg = s.cfg := by
  unfold State.advance; split <;> rfl
@[simp] theorem State.advance_gpr (s : State) : s.advance.gpr = s.gpr := by
  unfold State.advance; split <;> rfl
@[simp] theorem State.advance_lr (s : State) : s.advance.lr = s.lr := by
  unfold State.advance; split <;> rfl
@[simp] theorem State.advance_flags (s : State) : s.advance.flags = s.flags := by
  unfold State.advance; split <;> rfl
@[simp] theorem State.advance_status (s : State) : s.advance.status = s.status := by
  unfold State.advance; split <;> rfl
@[simp] theorem State.advance_mem (s : State) : s.advance.mem = s.mem := by
  unfold State.advance; split <;> rfl
@[simp] theorem State.advance_codeWords (s : State) : s.advance.codeWords = s.codeWords := by
  unfold State.advance; split <;> rfl
@[simp] theorem State.advance_out (s : State) : s.advance.out = s.out := by
  unfold State.advance; split <;> rfl
@[simp] theorem State.advance_draws (s : State) : s.advance.draws = s.draws := by
  unfold State.advance; split <;> rfl
@[simp] theorem State.advance_reg (s : State) (j : Fin 32) : s.advance.reg j = s.reg j := by
  simp [State.reg]

/-- The increment runs exactly where no fault was raised (30_encoding.md R95, R97). -/
theorem State.advance_pc (s : State) :
    s.advance.pc = if s.status.isFaulted then s.pc else s.pc + 1#32 := by
  unfold State.advance; split <;> rfl

end Sys2Proof.Machine
end

