-- ==== Sys2Proof/Laws/Ops.lean ====
section
/-! SUPPORT. One lemma per shared operation that says once everything it can do. -/

namespace Sys2Proof.Machine

/-! ## Register checks -/

theorem withReg_of_lt {b : Byte} (h : b.toNat < 32) (s : State) (k : Fin 32 → Result) :
    withReg b s k = k ⟨b.toNat, h⟩ := by
  simp [withReg, h]

theorem withReg_of_ge {b : Byte} (h : 32 ≤ b.toNat) (s : State) (k : Fin 32 → Result) :
    withReg b s k = .next (State.raised (.invalidRegister b) s) := by
  simp [withReg, raise, Nat.not_lt.mpr h]

/-- Everything a register check can do. -/
theorem withReg_next {b : Byte} {s t : State} {k : Fin 32 → Result} (h : withReg b s k = .next t) :
    (∃ hb : b.toNat < 32, k ⟨b.toNat, hb⟩ = .next t) ∨
      (32 ≤ b.toNat ∧ t = State.raised (.invalidRegister b) s) := by
  by_cases hb : b.toNat < 32
  · exact .inl ⟨hb, by rwa [withReg_of_lt hb] at h⟩
  · refine .inr ⟨Nat.not_lt.mp hb, ?_⟩
    rw [withReg_of_ge (Nat.not_lt.mp hb)] at h
    exact (Host.Outcome.next.inj h).symm

/-! ## The shared forms of the instruction families -/

/-- Everything a handler that checks three registers and then writes one can do. -/
theorem aluRegs_eq (f : Word → Word → Word) {rd ra rb : Byte} (hd : rd.toNat < 32) (ha : ra.toNat < 32)
    (hb : rb.toNat < 32) (s : State) :
    aluRegs f rd ra rb s = .next (s.setReg ⟨rd.toNat, hd⟩ (f (s.reg ⟨ra.toNat, ha⟩) (s.reg ⟨rb.toNat, hb⟩))) := by
  simp [aluRegs, withReg_of_lt hd, withReg_of_lt ha, withReg_of_lt hb]

theorem aluImm_eq (f : Word → Word → Word) {rd ra : Byte} (hd : rd.toNat < 32) (ha : ra.toNat < 32) (imm : Byte)
    (s : State) :
    aluImm f rd ra imm s = .next (s.setReg ⟨rd.toNat, hd⟩ (f (s.reg ⟨ra.toNat, ha⟩) (immX s.cfg imm))) := by
  simp [aluImm, withReg_of_lt hd, withReg_of_lt ha]

theorem shiftBy_eq (f : Word → Nat → Word) {rd ra : Byte} (hd : rd.toNat < 32) (ha : ra.toNat < 32) (amt : Byte)
    (s : State) :
    shiftBy f rd ra amt s = .next (s.setComputed ⟨rd.toNat, hd⟩
      (if amt.toNat < 32 then .value (f (s.reg ⟨ra.toNat, ha⟩) amt.toNat) else .anyWord)) := by
  simp [shiftBy, withReg_of_lt hd, withReg_of_lt ha]

theorem floatRegs_eq (f : Word → Word → Computed) {rd ra rb : Byte} (hd : rd.toNat < 32) (ha : ra.toNat < 32)
    (hb : rb.toNat < 32) (s : State) :
    floatRegs f rd ra rb s = .next (s.setComputed ⟨rd.toNat, hd⟩
      (f (s.reg ⟨ra.toNat, ha⟩) (s.reg ⟨rb.toNat, hb⟩))) := by
  simp [floatRegs, withReg_of_lt hd, withReg_of_lt ha, withReg_of_lt hb]

theorem compareRegs_eq (f : Word → Word → Flags) {ra rb : Byte} (ha : ra.toNat < 32) (hb : rb.toNat < 32)
    (s : State) :
    compareRegs f ra rb s = .next (s.setFlags (f (s.reg ⟨ra.toNat, ha⟩) (s.reg ⟨rb.toNat, hb⟩))) := by
  simp [compareRegs, withReg_of_lt ha, withReg_of_lt hb]

theorem loadBytes_eq (n : Nat) (ext : BitVec (8 * n) → Word) {rd rb : Byte} (hd : rd.toNat < 32) (hb : rb.toNat < 32)
    (off : Byte) (s : State) :
    loadBytes n ext rd rb off s =
      match memRead s (effAddr s ⟨rb.toNat, hb⟩ off) n with
      | .ok v => .next (s.setReg ⟨rd.toNat, hd⟩ (ext v))
      | .error f => .next (State.raised f s) := by
  rw [loadBytes, withReg_of_lt hd, withReg_of_lt hb]
  cases memRead s (effAddr s ⟨rb.toNat, hb⟩ off) n <;> rfl

theorem storeBytes_eq (n : Nat) {rs rb : Byte} (hr : rs.toNat < 32) (hb : rb.toNat < 32) (off : Byte) (s : State) :
    storeBytes n rs rb off s = memWrite (effAddr s ⟨rb.toNat, hb⟩ off) n (s.reg ⟨rs.toNat, hr⟩) s := by
  simp [storeBytes, withReg_of_lt hr, withReg_of_lt hb]

/-! ## Fetch and data access -/

/-- Everything a fetch can answer (20_memory.md R52). -/
theorem fetchWord_eq (s : State) :
    fetchWord s =
      if s.codeSize ≤ 4 * s.pc.toNat ∨ s.cfg.memSize ≤ 4 * s.pc.toNat then
        .error (.memoryFault (4 * s.pc.toNat) .fetch)
      else .ok (s.mem.readWord (4 * s.pc.toNat)) := rfl

theorem mem_byteAddrs {ea : Word} {n : Nat} {a : Word} :
    a ∈ byteAddrs ea n ↔ ∃ i < n, a = ea + BitVec.ofNat 32 i := by
  simp [byteAddrs, eq_comm]

/-- The first byte that fails its check, or none: what `memRead` and `memWrite` branch on. -/
theorem byteAddrs_allOk {s : State} {ea : Word} {n : Nat}
    (h : ∀ i < n, s.dataOk (ea + BitVec.ofNat 32 i) = true) :
    ((byteAddrs ea n).find? fun a => !s.dataOk a) = none := by
  rw [List.find?_eq_none]
  intro a ha
  obtain ⟨i, hi, rfl⟩ := mem_byteAddrs.mp ha
  simp [h i hi]

theorem byteAddrs_firstBad {s : State} {ea : Word} {n i : Nat} (hi : i < n)
    (hbad : s.dataOk (ea + BitVec.ofNat 32 i) = false)
    (hok : ∀ j < i, s.dataOk (ea + BitVec.ofNat 32 j) = true) :
    ((byteAddrs ea n).find? fun a => !s.dataOk a) = some (ea + BitVec.ofNat 32 i) := by
  rw [List.find?_eq_some_iff_getElem]
  refine ⟨by simp [hbad], i, by simpa [byteAddrs] using hi, by simp [byteAddrs], fun j hj => ?_⟩
  simp [byteAddrs, hok j hj]

/-- A read whose bytes all pass gives their big-endian value (R57). -/
theorem memRead_ok {s : State} {ea : Word} {n : Nat} (h : ∀ i < n, s.dataOk (ea + BitVec.ofNat 32 i) = true) :
    memRead s ea n =
      .ok (BitVec.ofNat (8 * n) (bigEndian ((byteAddrs ea n).map fun a => s.mem.read a.toNat))) := by
  simp [memRead, byteAddrs_allOk h]

/-- A read reports its first failing byte (R57, R205). -/
theorem memRead_bad {s : State} {ea : Word} {n i : Nat} (hi : i < n)
    (hbad : s.dataOk (ea + BitVec.ofNat 32 i) = false)
    (hok : ∀ j < i, s.dataOk (ea + BitVec.ofNat 32 j) = true) :
    memRead s ea n = .error (.memoryFault (ea + BitVec.ofNat 32 i).toNat .load) := by
  simp [memRead, byteAddrs_firstBad hi hbad hok]

/-- A write whose bytes all pass writes them all (R56). -/
theorem memWrite_ok {s : State} {ea : Word} {n : Nat} (v : Word)
    (h : ∀ i < n, s.dataOk (ea + BitVec.ofNat 32 i) = true) :
    memWrite ea n v s = .next { s with mem := s.mem.writeAll (bufferCells (storeCells ea n v)) } := by
  simp [memWrite, byteAddrs_allOk h]

/-- A write reports its first failing byte; bytes before it are old or new (R56, R58, R205). -/
theorem memWrite_bad {s : State} {ea : Word} {n i : Nat} (v : Word) (hi : i < n)
    (hbad : s.dataOk (ea + BitVec.ofNat 32 i) = false)
    (hok : ∀ j < i, s.dataOk (ea + BitVec.ofNat 32 j) = true) :
    memWrite ea n v s =
      .next (State.raised (.memoryFault (ea + BitVec.ofNat 32 i).toNat .store)
        (s.partialStore (storeCells ea n v))) := by
  simp [memWrite, byteAddrs_firstBad hi hbad hok, raise]

/-- Everything a write can do. -/
theorem memWrite_next {ea : Word} {n : Nat} {v : Word} {s t : State} (h : memWrite ea n v s = .next t) :
    ((∀ i < n, s.dataOk (ea + BitVec.ofNat 32 i) = true) ∧
        t = { s with mem := s.mem.writeAll (bufferCells (storeCells ea n v)) }) ∨
      ∃ a ∈ byteAddrs ea n, s.dataOk a = false ∧
        t = State.raised (.memoryFault a.toNat .store) (s.partialStore (storeCells ea n v)) := by
  unfold memWrite at h
  split at h
  · rename_i a ha
    refine .inr ⟨a, List.mem_of_find?_eq_some ha, by simpa using List.find?_some ha, ?_⟩
    exact (Host.Outcome.next.inj h).symm
  · rename_i hnone
    refine .inl ⟨fun i hi => ?_, (Host.Outcome.next.inj h).symm⟩
    have := List.find?_eq_none.mp hnone _ (mem_byteAddrs.mpr ⟨i, hi, rfl⟩)
    simpa using this

/-- Everything a read can answer. -/
theorem memRead_cases (s : State) (ea : Word) (n : Nat) :
    (memRead s ea n =
        .ok (BitVec.ofNat (8 * n) (bigEndian ((byteAddrs ea n).map fun a => s.mem.read a.toNat)))) ∨
      ∃ a ∈ byteAddrs ea n, s.dataOk a = false ∧ memRead s ea n = .error (.memoryFault a.toNat .load) := by
  unfold memRead
  split
  · rename_i a ha
    exact .inr ⟨a, List.mem_of_find?_eq_some ha, by simpa using List.find?_some ha, rfl⟩
  · exact .inl rfl

theorem mem_chosenBy {α : Type} {d : Word} {i : Nat} {cs : List α} {c : α} (h : c ∈ chosenBy d i cs) : c ∈ cs := by
  induction cs generalizing i with
  | nil => exact h
  | cons e cs ih =>
    unfold chosenBy at h
    split at h
    · rcases List.mem_cons.mp h with rfl | h
      · simp
      · simp [ih h]
    · simp [ih h]

/-- The byte a store writes is a base-256 digit of its value (R56). -/
theorem storeByte_eq (v : Word) (n i : Nat) : storeByte v n i = BitVec.ofNat 8 (v.toNat / 256 ^ (n - 1 - i)) := by
  apply BitVec.eq_of_toNat_eq
  simp [storeByte, Nat.shiftRight_eq_div_pow, Nat.pow_mul]

/-- A byte of a store that passed before the first failing one: which it is, and that every byte up to it passed (R58). -/
theorem mem_takeWhile_storeCells {s : State} {ea v : Word} {n : Nat} {c : Word × Byte}
    (h : c ∈ (storeCells ea n v).takeWhile fun c => s.dataOk c.1) :
    ∃ j < n, c = (ea + BitVec.ofNat 32 j, storeByte v n j) ∧ ∀ k ≤ j, s.dataOk (ea + BitVec.ofNat 32 k) = true := by
  have hp := List.takeWhile_prefix (l := storeCells ea n v) fun c => s.dataOk c.1
  obtain ⟨j, hj, hc⟩ := List.getElem_of_mem h
  have get (k : Nat) (hk : k < ((storeCells ea n v).takeWhile fun c => s.dataOk c.1).length) :
      ((storeCells ea n v).takeWhile fun c => s.dataOk c.1)[k] = (ea + BitVec.ofNat 32 k, storeByte v n k) := by
    rw [hp.getElem hk]
    simp [storeCells]
  refine ⟨j, ?_, by rw [← hc, get j hj], fun k hk => ?_⟩
  · have hl := hp.length_le
    simp only [storeCells, List.length_map, List.length_range] at hl hj
    omega
  · have hk' := Nat.lt_of_le_of_lt hk hj
    have := List.mem_takeWhile_imp (List.getElem_mem hk')
    rwa [get k hk'] at this

/-- The bytes a faulting store may have written are bytes of it that passed their check (R58). -/
theorem partialStore_frame (s : State) (cells : List (Word × Byte)) (a : Nat)
    (h : ∀ c ∈ cells.takeWhile (fun c => s.dataOk c.1), c.1.toNat ≠ a) :
    (s.partialStore cells).mem.read a = s.mem.read a := by
  refine Memory.read_writeAll_of_not_mem _ _ _ fun c hc => ?_
  obtain ⟨d, hd, rfl⟩ := List.mem_map.mp hc
  exact h d (mem_chosenBy hd)

/-! ## The step's increment -/

@[simp] theorem advanceResult_next (s : State) : advanceResult (.next s) = .next s.advance := rfl

theorem State.advance_of_not_faulted {s : State} (h : s.status.isFaulted = false) :
    s.advance = { s with pc := s.pc + 1#32 } := by
  simp [State.advance, h]

theorem State.advance_of_faulted {s : State} (h : s.status.isFaulted = true) : s.advance = s := by
  simp [State.advance, h]

/-! ## Draws -/

/-- Every draw gives a NaN pattern: exponent all ones, fraction not zero (41_float.md R135). -/
theorem nanOfDraw_isNan (d : Word) : floatClass (nanOfDraw d) = .nan := by
  have hexp : ∀ (m : Word), m.extractLsb' 23 8 = 0xFF#8 → (d ||| m).extractLsb' 23 8 = 0xFF#8 := by
    intro m hm
    rw [BitVec.extractLsb'_or, hm]
    exact BitVec.or_allOnes
  unfold nanOfDraw floatClass floatExp floatFrac
  split
  · rename_i h0
    have h1 : (d ||| 0x7FC00000#32).extractLsb' 0 23 = 0x400000#23 := by
      rw [BitVec.extractLsb'_or, h0]; decide
    rw [hexp _ (by decide), h1]; rfl
  · rename_i h0
    have h1 : (d ||| 0x7F800000#32).extractLsb' 0 23 = d.extractLsb' 0 23 := by
      rw [BitVec.extractLsb'_or, show (0x7F800000#32).extractLsb' 0 23 = 0#23 by decide]; simp
    have h2 : (d.extractLsb' 0 23).toNat ≠ 0 := fun h => h0 (BitVec.eq_of_toNat_eq (by simpa using h))
    rw [hexp _ (by decide), h1]
    simp only [BitVec.reduceToNat, if_true, if_neg h2]

end Sys2Proof.Machine
end

