-- ==== Sys2Proof/Laws/Exec.lean ====
section
/-! SUPPORT. Everything a handler can do, said once: one inversion lemma over all instructions, from which a rule about the
whole machine follows by a case split on thirteen effects instead of fifty-three instructions. -/

namespace Sys2Proof.Machine

/-- The operand byte that names the register an instruction writes, if it writes one (10_state.md R22; for `QMB`, R194). -/
def destByte (k : SysKinds) : Instr → Option Byte
  | .add rd _ _ => some rd
  | .sub rd _ _ => some rd
  | .mul rd _ _ => some rd
  | .and rd _ _ => some rd
  | .or rd _ _ => some rd
  | .xor rd _ _ => some rd
  | .addi rd _ _ => some rd
  | .subi rd _ _ => some rd
  | .muli rd _ _ => some rd
  | .andi rd _ _ => some rd
  | .ori rd _ _ => some rd
  | .xori rd _ _ => some rd
  | .not rd _ => some rd
  | .shl rd _ _ => some rd
  | .shr rd _ _ => some rd
  | .fadd rd _ _ => some rd
  | .fsub rd _ _ => some rd
  | .fmul rd _ _ => some rd
  | .fdiv rd _ _ => some rd
  | .seti rd _ => some rd
  | .cmp _ _ => none
  | .fcmp _ _ => none
  | .cmpi _ _ => none
  | .b _ => none
  | .beq _ => none
  | .bne _ => none
  | .bgt _ => none
  | .blt _ => none
  | .bge _ => none
  | .ble _ => none
  | .bl _ => none
  | .beql _ => none
  | .bnel _ => none
  | .bgtl _ => none
  | .bltl _ => none
  | .bgel _ => none
  | .blel _ => none
  | .blr => none
  | .beqlr => none
  | .bnelr => none
  | .bgtlr => none
  | .bltlr => none
  | .bgelr => none
  | .blelr => none
  | .mflr rd => some rd
  | .mtlr _ => none
  | .ldb rd _ _ => some rd
  | .ldh rd _ _ => some rd
  | .ldw rd _ _ => some rd
  | .stb _ _ _ => none
  | .sth _ _ _ => none
  | .stw _ _ _ => none
  | .syscall kind r => if kindOf k kind = some .qmb then some r else none

/-- What a handler can do to the state, with the instructions that can do it. -/
inductive Effect (i : Instr) (s : State) : State → Prop where
  /-- A register byte of 32 or more. -/
  | badRegister (b : Byte) (hb : b ∈ i.regBytes s.cfg) (h : 32 ≤ b.toNat) :
      Effect i s (State.raised (.invalidRegister b) s)
  /-- An unknown syscall kind. -/
  | badKind (kind r : Byte) (hi : i = .syscall kind r) (h : kindOf s.cfg.kinds kind = none) :
      Effect i s (State.raised (.invalidSyscall kind) s)
  /-- A load with a byte outside the data region. -/
  | badLoad (a : Word) (rd rb off : Byte) (hi : i ∈ [Instr.ldb rd rb off, .ldh rd rb off, .ldw rd rb off])
      (h : s.dataOk a = false) : Effect i s (State.raised (.memoryFault a.toNat .load) s)
  /-- A store with a byte outside the data region. -/
  | badStore (a ea : Word) (n : Nat) (v : Word) (rs rb off : Byte)
      (hi : (i, n) ∈ [(Instr.stb rs rb off, 1), (.sth rs rb off, 2), (.stw rs rb off, 4)])
      (ha : a ∈ byteAddrs ea n) (h : s.dataOk a = false) :
      Effect i s (State.raised (.memoryFault a.toNat .store) (s.partialStore (storeCells ea n v)))
  /-- A register written, by a computed value or a draw. -/
  | wrote (d : Fin 32) (c : Computed) (b : Byte) (hi : destByte s.cfg.kinds i = some b) (hb : b.toNat = d.val) :
      Effect i s (s.setComputed d c)
  /-- The flags written. -/
  | compared (f : Flags) (ra rb : Byte) (imm : BitVec 16) (hi : i ∈ [Instr.cmp ra rb, .fcmp ra rb, .cmpi ra imm]) :
      Effect i s (s.setFlags f)
  /-- An event emitted. -/
  | emitted (e : Event) (kind : SysKind) (k r : Byte) (hi : i = .syscall k r) (hk : kindOf s.cfg.kinds k = some kind)
      (hkind : kind = .print ∨ kind = .iprint ∨ kind = .fprint) : Effect i s (s.emit e)
  /-- The run halted. -/
  | halted (r : Byte) (hi : i = .syscall s.cfg.kinds.halt r) : Effect i s { s with status := .halted }
  /-- The bytes of a store written. -/
  | stored (ea : Word) (n : Nat) (v : Word) (rs rb off : Byte)
      (hi : (i, n) ∈ [(Instr.stb rs rb off, 1), (.sth rs rb off, 2), (.stw rs rb off, 4)])
      (h : ∀ j < n, s.dataOk (ea + BitVec.ofNat 32 j) = true) :
      Effect i s { s with mem := s.mem.writeAll (bufferCells (storeCells ea n v)) }
  /-- A relative branch. -/
  | branched (taken : Bool) (off : BitVec 24) (hi : (i, taken) ∈ [(Instr.b off, true), (.beq off, Cond.eq.holds s.flags),
        (.bne off, Cond.ne.holds s.flags), (.bgt off, Cond.gt.holds s.flags), (.blt off, Cond.lt.holds s.flags),
        (.bge off, Cond.ge.holds s.flags), (.ble off, Cond.le.holds s.flags)]) : Effect i s (branchRel taken off s)
  /-- A link branch. -/
  | linked (taken : Bool) (off : BitVec 24) (hi : (i, taken) ∈ [(Instr.bl off, true), (.beql off, Cond.eq.holds s.flags),
        (.bnel off, Cond.ne.holds s.flags), (.bgtl off, Cond.gt.holds s.flags), (.bltl off, Cond.lt.holds s.flags),
        (.bgel off, Cond.ge.holds s.flags), (.blel off, Cond.le.holds s.flags)]) : Effect i s (linkBranch taken off s)
  /-- A branch through `lr`. -/
  | returned (taken : Bool) (hi : (i, taken) ∈ [(Instr.blr, true), (.beqlr, Cond.eq.holds s.flags),
        (.bnelr, Cond.ne.holds s.flags), (.bgtlr, Cond.gt.holds s.flags), (.bltlr, Cond.lt.holds s.flags),
        (.bgelr, Cond.ge.holds s.flags), (.blelr, Cond.le.holds s.flags)]) : Effect i s (returnBranch taken s)
  /-- `lr` written from a register. -/
  | movedToLr (rs : Byte) (r : Fin 32) (hi : i = .mtlr rs) (hr : rs.toNat = r.val) : Effect i s { s with lr := s.reg r }

theorem kindOf_halt {k : SysKinds} {b : Byte} (h : kindOf k b = some .halt) : b = k.halt := by
  unfold kindOf at h
  split at h
  · assumption
  · repeat (split at h; · cases h)
    cases h

theorem kindOf_not_halt {k : SysKinds} {b : Byte} {x : SysKind} (h : kindOf k b = some x) (hx : x ≠ .halt) :
    b ≠ k.halt := by
  rintro rfl
  simp only [kindOf, if_true, Option.some.injEq] at h
  exact hx h.symm

/-- Three register bytes checked, one register written. -/
theorem effect_regs3 {i : Instr} {s t : State} {rd ra rb : Byte} {v : Fin 32 → Fin 32 → Computed}
    (hr : i.regBytes s.cfg = [rd, ra, rb]) (hd : destByte s.cfg.kinds i = some rd)
    (h : withReg rd s (fun d => withReg ra s fun a => withReg rb s fun b => .next (s.setComputed d (v a b))) = .next t) :
    Effect i s t := by
  rcases withReg_next h with ⟨h1, h⟩ | ⟨h1, rfl⟩
  · rcases withReg_next h with ⟨_, h⟩ | ⟨h2, rfl⟩
    · rcases withReg_next h with ⟨_, h⟩ | ⟨h3, rfl⟩
      · cases h
        exact .wrote _ _ rd hd rfl
      · exact .badRegister rb (by simp [hr]) h3
    · exact .badRegister ra (by simp [hr]) h2
  · exact .badRegister rd (by simp [hr]) h1

/-- Two register bytes checked, one register written. -/
theorem effect_regs2 {i : Instr} {s t : State} {rd ra : Byte} {v : Fin 32 → Computed}
    (hr : i.regBytes s.cfg = [rd, ra]) (hd : destByte s.cfg.kinds i = some rd)
    (h : withReg rd s (fun d => withReg ra s fun a => .next (s.setComputed d (v a))) = .next t) : Effect i s t := by
  rcases withReg_next h with ⟨h1, h⟩ | ⟨h1, rfl⟩
  · rcases withReg_next h with ⟨_, h⟩ | ⟨h2, rfl⟩
    · cases h
      exact .wrote _ _ rd hd rfl
    · exact .badRegister ra (by simp [hr]) h2
  · exact .badRegister rd (by simp [hr]) h1

/-- One register byte checked, that register written. -/
theorem effect_reg1 {i : Instr} {s t : State} {rd : Byte} {v : Computed} (hr : rd ∈ i.regBytes s.cfg)
    (hd : destByte s.cfg.kinds i = some rd) (h : withReg rd s (fun d => .next (s.setComputed d v)) = .next t) :
    Effect i s t := by
  rcases withReg_next h with ⟨h1, h⟩ | ⟨h1, rfl⟩
  · cases h
    exact .wrote _ _ rd hd rfl
  · exact .badRegister rd hr h1

/-- A compare of two registers. -/
theorem effect_compare {i : Instr} {s t : State} {f : Word → Word → Flags} {ra rb : Byte}
    (hr : i.regBytes s.cfg = [ra, rb]) (hi : i ∈ [Instr.cmp ra rb, .fcmp ra rb, .cmpi ra 0#16])
    (h : compareRegs f ra rb s = .next t) : Effect i s t := by
  rcases withReg_next h with ⟨_, h⟩ | ⟨h1, rfl⟩
  · rcases withReg_next h with ⟨_, h⟩ | ⟨h2, rfl⟩
    · cases h
      exact .compared _ ra rb 0#16 hi
    · exact .badRegister rb (by simp [hr]) h2
  · exact .badRegister ra (by simp [hr]) h1

/-- A compare with an immediate. -/
theorem effect_cmpi {s t : State} {ra : Byte} {imm : BitVec 16} (h : execCmpi ra imm s = .next t) :
    Effect (.cmpi ra imm) s t := by
  rcases withReg_next h with ⟨_, h⟩ | ⟨h1, rfl⟩
  · cases h
    exact .compared _ ra 0#8 imm (by simp)
  · exact .badRegister ra (List.mem_singleton_self _) h1

/-- A move to `lr`. -/
theorem effect_mtlr {s t : State} {rs : Byte} (h : execMtlr rs s = .next t) : Effect (.mtlr rs) s t := by
  rcases withReg_next h with ⟨h1, h⟩ | ⟨h1, rfl⟩
  · cases h
    exact .movedToLr rs ⟨rs.toNat, h1⟩ rfl rfl
  · exact .badRegister rs (List.mem_singleton_self _) h1

/-- A load. -/
theorem effect_load {i : Instr} {s t : State} {n : Nat} {ext : BitVec (8 * n) → Word} {rd rb off : Byte}
    (hr : i.regBytes s.cfg = [rd, rb]) (hd : destByte s.cfg.kinds i = some rd)
    (hi : i ∈ [Instr.ldb rd rb off, .ldh rd rb off, .ldw rd rb off]) (h : loadBytes n ext rd rb off s = .next t) :
    Effect i s t := by
  rcases withReg_next h with ⟨h1, h⟩ | ⟨h1, rfl⟩
  · rcases withReg_next h with ⟨h2, h⟩ | ⟨h2, rfl⟩
    · rcases memRead_cases s (effAddr s ⟨rb.toNat, h2⟩ off) n with hm | ⟨a, _, ha, hm⟩
      · rw [hm] at h
        cases h
        exact .wrote ⟨rd.toNat, h1⟩ (.value _) rd hd rfl
      · rw [hm] at h
        cases h
        exact .badLoad a rd rb off hi ha
    · exact .badRegister rb (by simp [hr]) h2
  · exact .badRegister rd (by simp [hr]) h1

/-- A store. -/
theorem effect_store {i : Instr} {s t : State} {n : Nat} {rs rb off : Byte} (hr : i.regBytes s.cfg = [rs, rb])
    (hi : (i, n) ∈ [(Instr.stb rs rb off, 1), (.sth rs rb off, 2), (.stw rs rb off, 4)])
    (h : storeBytes n rs rb off s = .next t) : Effect i s t := by
  rcases withReg_next h with ⟨h1, h⟩ | ⟨h1, rfl⟩
  · rcases withReg_next h with ⟨h2, h⟩ | ⟨h2, rfl⟩
    · rcases memWrite_next h with ⟨hok, rfl⟩ | ⟨a, ha, hbad, rfl⟩
      · exact .stored _ n _ rs rb off hi hok
      · exact .badStore a _ n _ rs rb off hi ha hbad
    · exact .badRegister rb (by simp [hr]) h2
  · exact .badRegister rs (by simp [hr]) h1

/-- A system call. -/
theorem effect_syscall {s t : State} {kind r : Byte} (h : execSyscall kind r s = .next t) :
    Effect (.syscall kind r) s t := by
  have hreg : ∀ x, kindOf s.cfg.kinds kind = some x → x ≠ .halt → r ∈ (Instr.syscall kind r).regBytes s.cfg :=
    fun x hx hne => by simp [Instr.regBytes, kindOf_not_halt hx hne]
  unfold execSyscall at h
  split at h <;> rename_i hk
  · rcases withReg_next h with ⟨_, h⟩ | ⟨h1, rfl⟩
    · cases h
      exact .emitted _ _ kind r rfl hk (.inl rfl)
    · exact .badRegister r (hreg _ hk (by simp)) h1
  · rcases withReg_next h with ⟨_, h⟩ | ⟨h1, rfl⟩
    · cases h
      exact .emitted _ _ kind r rfl hk (.inr (.inl rfl))
    · exact .badRegister r (hreg _ hk (by simp)) h1
  · rcases withReg_next h with ⟨_, h⟩ | ⟨h1, rfl⟩
    · cases h
      exact .emitted _ _ kind r rfl hk (.inr (.inr rfl))
    · exact .badRegister r (hreg _ hk (by simp)) h1
  · exact effect_reg1 (v := .value _) (hreg _ hk (by simp)) (by simp [destByte, hk]) h
  · cases h
    exact .halted r (by rw [kindOf_halt hk])
  · cases h
    exact .badKind kind r rfl hk

/-- Everything a handler can do. -/
theorem exec_effect {i : Instr} {s t : State} (h : exec i s = .next t) : Effect i s t := by
  cases i with
  | add rd ra rb => exact effect_regs3 (v := fun _ _ => .value _) rfl rfl h
  | sub rd ra rb => exact effect_regs3 (v := fun _ _ => .value _) rfl rfl h
  | mul rd ra rb => exact effect_regs3 (v := fun _ _ => .value _) rfl rfl h
  | and rd ra rb => exact effect_regs3 (v := fun _ _ => .value _) rfl rfl h
  | or rd ra rb => exact effect_regs3 (v := fun _ _ => .value _) rfl rfl h
  | xor rd ra rb => exact effect_regs3 (v := fun _ _ => .value _) rfl rfl h
  | addi rd ra imm => exact effect_regs2 (v := fun _ => .value _) rfl rfl h
  | subi rd ra imm => exact effect_regs2 (v := fun _ => .value _) rfl rfl h
  | muli rd ra imm => exact effect_regs2 (v := fun _ => .value _) rfl rfl h
  | andi rd ra imm => exact effect_regs2 (v := fun _ => .value _) rfl rfl h
  | ori rd ra imm => exact effect_regs2 (v := fun _ => .value _) rfl rfl h
  | xori rd ra imm => exact effect_regs2 (v := fun _ => .value _) rfl rfl h
  | not rd ra => exact effect_regs2 (v := fun _ => .value _) rfl rfl h
  | shl rd ra amt => exact effect_regs2 rfl rfl h
  | shr rd ra amt => exact effect_regs2 rfl rfl h
  | fadd rd ra rb => exact effect_regs3 (v := fun a b => floatAdd (s.reg a) (s.reg b)) rfl rfl h
  | fsub rd ra rb => exact effect_regs3 (v := fun a b => floatSub (s.reg a) (s.reg b)) rfl rfl h
  | fmul rd ra rb => exact effect_regs3 (v := fun a b => floatMul (s.reg a) (s.reg b)) rfl rfl h
  | fdiv rd ra rb => exact effect_regs3 (v := fun a b => floatDiv (s.reg a) (s.reg b)) rfl rfl h
  | seti rd imm => exact effect_reg1 (v := .value _) (List.mem_singleton_self _) rfl h
  | cmp ra rb => exact effect_compare rfl (by simp) h
  | fcmp ra rb => exact effect_compare rfl (by simp) h
  | cmpi ra imm => exact effect_cmpi h
  | b off => cases h; exact .branched _ off (by simp)
  | beq off => cases h; exact .branched _ off (by simp)
  | bne off => cases h; exact .branched _ off (by simp)
  | bgt off => cases h; exact .branched _ off (by simp)
  | blt off => cases h; exact .branched _ off (by simp)
  | bge off => cases h; exact .branched _ off (by simp)
  | ble off => cases h; exact .branched _ off (by simp)
  | bl off => cases h; exact .linked _ off (by simp)
  | beql off => cases h; exact .linked _ off (by simp)
  | bnel off => cases h; exact .linked _ off (by simp)
  | bgtl off => cases h; exact .linked _ off (by simp)
  | bltl off => cases h; exact .linked _ off (by simp)
  | bgel off => cases h; exact .linked _ off (by simp)
  | blel off => cases h; exact .linked _ off (by simp)
  | blr => cases h; exact .returned _ (by simp)
  | beqlr => cases h; exact .returned _ (by simp)
  | bnelr => cases h; exact .returned _ (by simp)
  | bgtlr => cases h; exact .returned _ (by simp)
  | bltlr => cases h; exact .returned _ (by simp)
  | bgelr => cases h; exact .returned _ (by simp)
  | blelr => cases h; exact .returned _ (by simp)
  | mflr rd => exact effect_reg1 (v := .value _) (List.mem_singleton_self _) rfl h
  | mtlr rs => exact effect_mtlr h
  | ldb rd rb off => exact effect_load rfl rfl (by simp) h
  | ldh rd rb off => exact effect_load rfl rfl (by simp) h
  | ldw rd rb off => exact effect_load rfl rfl (by simp) h
  | stb rs rb off => exact effect_store rfl (by simp) h
  | sth rs rb off => exact effect_store rfl (by simp) h
  | stw rs rb off => exact effect_store rfl (by simp) h
  | syscall kind r => exact effect_syscall h

end Sys2Proof.Machine
end

