-- ==== Sys2Proof/Laws/PerInstr.lean ====
section
/-! SUPPORT. Per-instruction facts about the instructions as syntax. The family `Fields`: cutting the operand bytes that
the encoder writes for an instruction gives the instruction back, whatever its opcode byte, so no operand bit is dropped
and none is read from another operand's place (30_encoding.md R92, R104, R109). -/

namespace Sys2Proof.Laws.Fields

/-- Cutting an instruction's own operand bytes gives the instruction back. -/
def Statement (i : Instr) : Prop := ∀ op : Byte, cutOperands i.mnemonic (op ++ i.operandBits) = i

theorem add (rd ra rb : Byte) : Statement (.add rd ra rb) :=
  fun op => read_three Instr.add op rd ra rb

theorem sub (rd ra rb : Byte) : Statement (.sub rd ra rb) :=
  fun op => read_three Instr.sub op rd ra rb

theorem mul (rd ra rb : Byte) : Statement (.mul rd ra rb) :=
  fun op => read_three Instr.mul op rd ra rb

theorem and (rd ra rb : Byte) : Statement (.and rd ra rb) :=
  fun op => read_three Instr.and op rd ra rb

theorem or (rd ra rb : Byte) : Statement (.or rd ra rb) :=
  fun op => read_three Instr.or op rd ra rb

theorem xor (rd ra rb : Byte) : Statement (.xor rd ra rb) :=
  fun op => read_three Instr.xor op rd ra rb

theorem addi (rd ra imm : Byte) : Statement (.addi rd ra imm) :=
  fun op => read_three Instr.addi op rd ra imm

theorem subi (rd ra imm : Byte) : Statement (.subi rd ra imm) :=
  fun op => read_three Instr.subi op rd ra imm

theorem muli (rd ra imm : Byte) : Statement (.muli rd ra imm) :=
  fun op => read_three Instr.muli op rd ra imm

theorem andi (rd ra imm : Byte) : Statement (.andi rd ra imm) :=
  fun op => read_three Instr.andi op rd ra imm

theorem ori (rd ra imm : Byte) : Statement (.ori rd ra imm) :=
  fun op => read_three Instr.ori op rd ra imm

theorem xori (rd ra imm : Byte) : Statement (.xori rd ra imm) :=
  fun op => read_three Instr.xori op rd ra imm

theorem not (rd ra : Byte) : Statement (.not rd ra) :=
  fun op => read_two Instr.not op rd ra 0#8

theorem shl (rd ra amt : Byte) : Statement (.shl rd ra amt) :=
  fun op => read_three Instr.shl op rd ra amt

theorem shr (rd ra amt : Byte) : Statement (.shr rd ra amt) :=
  fun op => read_three Instr.shr op rd ra amt

theorem fadd (rd ra rb : Byte) : Statement (.fadd rd ra rb) :=
  fun op => read_three Instr.fadd op rd ra rb

theorem fsub (rd ra rb : Byte) : Statement (.fsub rd ra rb) :=
  fun op => read_three Instr.fsub op rd ra rb

theorem fmul (rd ra rb : Byte) : Statement (.fmul rd ra rb) :=
  fun op => read_three Instr.fmul op rd ra rb

theorem fdiv (rd ra rb : Byte) : Statement (.fdiv rd ra rb) :=
  fun op => read_three Instr.fdiv op rd ra rb

theorem seti (rd : Byte) (imm : BitVec 16) : Statement (.seti rd imm) :=
  fun op => read_imm16 Instr.seti op rd imm

theorem cmp (ra rb : Byte) : Statement (.cmp ra rb) :=
  fun op => read_two Instr.cmp op ra rb 0#8

theorem fcmp (ra rb : Byte) : Statement (.fcmp ra rb) :=
  fun op => read_two Instr.fcmp op ra rb 0#8

theorem cmpi (ra : Byte) (imm : BitVec 16) : Statement (.cmpi ra imm) :=
  fun op => read_imm16 Instr.cmpi op ra imm

theorem b (off : BitVec 24) : Statement (.b off) :=
  fun op => read_off24 Instr.b op off

theorem beq (off : BitVec 24) : Statement (.beq off) :=
  fun op => read_off24 Instr.beq op off

theorem bne (off : BitVec 24) : Statement (.bne off) :=
  fun op => read_off24 Instr.bne op off

theorem bgt (off : BitVec 24) : Statement (.bgt off) :=
  fun op => read_off24 Instr.bgt op off

theorem blt (off : BitVec 24) : Statement (.blt off) :=
  fun op => read_off24 Instr.blt op off

theorem bge (off : BitVec 24) : Statement (.bge off) :=
  fun op => read_off24 Instr.bge op off

theorem ble (off : BitVec 24) : Statement (.ble off) :=
  fun op => read_off24 Instr.ble op off

theorem bl (off : BitVec 24) : Statement (.bl off) :=
  fun op => read_off24 Instr.bl op off

theorem beql (off : BitVec 24) : Statement (.beql off) :=
  fun op => read_off24 Instr.beql op off

theorem bnel (off : BitVec 24) : Statement (.bnel off) :=
  fun op => read_off24 Instr.bnel op off

theorem bgtl (off : BitVec 24) : Statement (.bgtl off) :=
  fun op => read_off24 Instr.bgtl op off

theorem bltl (off : BitVec 24) : Statement (.bltl off) :=
  fun op => read_off24 Instr.bltl op off

theorem bgel (off : BitVec 24) : Statement (.bgel off) :=
  fun op => read_off24 Instr.bgel op off

theorem blel (off : BitVec 24) : Statement (.blel off) :=
  fun op => read_off24 Instr.blel op off

theorem blr : Statement (.blr) :=
  fun _ => rfl

theorem beqlr : Statement (.beqlr) :=
  fun _ => rfl

theorem bnelr : Statement (.bnelr) :=
  fun _ => rfl

theorem bgtlr : Statement (.bgtlr) :=
  fun _ => rfl

theorem bltlr : Statement (.bltlr) :=
  fun _ => rfl

theorem bgelr : Statement (.bgelr) :=
  fun _ => rfl

theorem blelr : Statement (.blelr) :=
  fun _ => rfl

theorem mflr (rd : Byte) : Statement (.mflr rd) :=
  fun op => read_one Instr.mflr op rd 0#16

theorem mtlr (rs : Byte) : Statement (.mtlr rs) :=
  fun op => read_one Instr.mtlr op rs 0#16

theorem ldb (rd rb off : Byte) : Statement (.ldb rd rb off) :=
  fun op => read_three Instr.ldb op rd rb off

theorem ldh (rd rb off : Byte) : Statement (.ldh rd rb off) :=
  fun op => read_three Instr.ldh op rd rb off

theorem ldw (rd rb off : Byte) : Statement (.ldw rd rb off) :=
  fun op => read_three Instr.ldw op rd rb off

theorem stb (rs rb off : Byte) : Statement (.stb rs rb off) :=
  fun op => read_three Instr.stb op rs rb off

theorem sth (rs rb off : Byte) : Statement (.sth rs rb off) :=
  fun op => read_three Instr.sth op rs rb off

theorem stw (rs rb off : Byte) : Statement (.stw rs rb off) :=
  fun op => read_three Instr.stw op rs rb off

theorem syscall (kind r : Byte) : Statement (.syscall kind r) :=
  fun op => read_two Instr.syscall op kind r 0#8

end Sys2Proof.Laws.Fields
end

