-- ==== Sys2Proof/Laws/Step.lean ====
section
/-! SUPPORT. Everything a step can do, said once, and that the word placed for a step is the one it fetches. -/

namespace Sys2Proof.Machine

/-- Everything a step can do (30_encoding.md R91): it starts running, and it ends on a fetch fault, on an invalid opcode, or
with what the one handler answered and the increment. -/
theorem step_next {s t : State} (h : step s = .next t) :
    s.status = .running ∧
      ((∃ f, fetchWord s = .error f ∧ t = State.raised f s) ∨
        (∃ w e, fetchWord s = .ok w ∧ decode s.cfg w = .error e ∧
          t = State.raised (.invalidOpcode (opcodeByte w)) s) ∨
        ∃ w i u, fetchWord s = .ok w ∧ decode s.cfg w = .ok i ∧ exec i s = .next u ∧ t = u.advance) := by
  unfold step at h
  split at h
  · rename_i hs
    refine ⟨hs, ?_⟩
    unfold stepRunning at h
    split at h
    · rename_i f hf
      exact .inl ⟨f, hf, (Host.Outcome.next.inj h).symm⟩
    · rename_i w hw
      split at h
      · rename_i i hi
        refine .inr (.inr ⟨w, i, ?_⟩)
        cases hx : exec i s with
        | next u =>
          rw [hx] at h
          exact ⟨u, hw, hi, rfl, (Host.Outcome.next.inj h).symm⟩
        | fault f => rw [hx] at h; cases h
        | refused r => rw [hx] at h; cases h
      · rename_i e he
        exact .inr (.inl ⟨w, e, hw, he, (Host.Outcome.next.inj h).symm⟩)
  · cases h

/-- A step that fetches and decodes runs the handler and increments. -/
theorem step_of_decoded {s : State} {w : Word} {i : Instr} (hs : s.status = .running) (hf : fetchWord s = .ok w)
    (hd : decode s.cfg w = .ok i) : step s = advanceResult (exec i s) := by
  simp [step, stepRunning, hs, hf, hd]

theorem step_of_fetchFault {s : State} {f : ExecFault} (hs : s.status = .running) (hf : fetchWord s = .error f) :
    step s = .next (State.raised f s) := by
  simp [step, stepRunning, hs, hf, raise]

theorem step_of_invalidOpcode {s : State} {w : Word} {e : DecodeError} (hs : s.status = .running)
    (hf : fetchWord s = .ok w) (hd : decode s.cfg w = .error e) :
    step s = .next (State.raised (.invalidOpcode (opcodeByte w)) s) := by
  simp [step, stepRunning, hs, hf, hd, raise]

theorem step_of_not_running {s : State} (hs : s.status ≠ .running) : step s = .fault .notRunning := by
  unfold step
  split
  · rename_i h; exact absurd h hs
  · rfl

theorem cellsFrom_addr {a : Nat} {bs : List Byte} {c : Host.Cell} (h : c ∈ cellsFrom a bs) :
    a ≤ c.1 ∧ c.1 < a + bs.length := by
  induction bs generalizing a with
  | nil => cases h
  | cons b bs ih =>
    rcases List.mem_cons.mp h with rfl | h
    · exact ⟨Nat.le_refl _, by simp⟩
    · have := ih h
      simp only [List.length_cons]
      omega

/-- Bytes written from an address upwards read back in place. -/
theorem read_cellsFrom (m : Memory) (a : Nat) (bs : List Byte) {i : Nat} (h : i < bs.length) :
    (m.writeAll (cellsFrom a bs)).read (a + i) = bs[i] := by
  induction bs generalizing m a i with
  | nil => cases h
  | cons b bs ih =>
    cases i with
    | zero =>
      rw [cellsFrom, Memory.writeAll_cons, Memory.read_writeAll_of_not_mem]
      · simp
      · intro c hc
        have := cellsFrom_addr hc
        simp only [Nat.add_zero]
        omega
    | succ i =>
      have h' : i < bs.length := by simpa using h
      have := ih (m.write a b) (a + 1) h'
      rw [cellsFrom, Memory.writeAll_cons, show a + (i + 1) = a + 1 + i by omega, this]
      rfl

/-- A word's bytes written at an address read back as the word. -/
theorem readWord_bytesOfWord (m : Memory) (a : Nat) (w : Word) :
    (m.writeAll (cellsFrom a (bytesOfWord w))).readWord a = w := by
  have h (i : Nat) (hi : i < (bytesOfWord w).length) :=
    read_cellsFrom m a (bytesOfWord w) hi
  have h0 : (m.writeAll (cellsFrom a (bytesOfWord w))).read a = operandByte 0 w := h 0 (by simp [bytesOfWord])
  have h1 : (m.writeAll (cellsFrom a (bytesOfWord w))).read (a + 1) = operandByte 1 w := h 1 (by simp [bytesOfWord])
  have h2 : (m.writeAll (cellsFrom a (bytesOfWord w))).read (a + 2) = operandByte 2 w := h 2 (by simp [bytesOfWord])
  have h3 : (m.writeAll (cellsFrom a (bytesOfWord w))).read (a + 3) = operandByte 3 w := h 3 (by simp [bytesOfWord])
  rw [Memory.readWord, h0, h1, h2, h3]
  exact wordOfBytes_bytes w

/-- The word placed for a step is the one the step fetches, in every state. -/
theorem fetchWord_placeWord (s : State) (w : Word) : fetchWord (s.placeWord w) = .ok w := by
  have hmax : 4 ≤ max s.cfg.memSize 4 := Nat.le_max_right _ _
  unfold State.placeWord
  dsimp only
  split
  · rw [fetchWord_eq]
    rw [if_neg]
    · exact congrArg _ (readWord_bytesOfWord _ _ _)
    · simp only [State.codeSize]
      simp
  · rename_i h
    rw [fetchWord_eq]
    rw [if_neg]
    · exact congrArg _ (readWord_bytesOfWord _ _ _)
    · exact h

@[simp] theorem placeWord_status (s : State) (w : Word) : (s.placeWord w).status = .running := by
  unfold State.placeWord
  dsimp only
  split <;> rfl

end Sys2Proof.Machine
end

