-- ==== Sys2Proof/Machine/HostView.lean ====
section
/-! DEFINITION. What the host reads of the block between steps and at the end of a run (10_state.md R40(d), R42;
60_exceptions.md R201, R204). -/

namespace Sys2Proof.Machine

/-- The reference fault codes (R201, D25): 0 where there is no fault. -/
def faultCode : RunStatus → Nat
  | .running | .halted | .stopped => 0
  | .faulted (.invalidOpcode _) => 1
  | .faulted (.invalidRegister _) => 2
  | .faulted (.memoryFault _ _) => 3
  | .faulted (.invalidSyscall _) => 4

/-- The reference access codes of a `MemoryFault` (R201, D25). -/
def accessCode : Access → Nat
  | .fetch => 0
  | .load => 1
  | .store => 2

/-- The diagnostic layout of the flag register (10_state.md R29, D36): bit 2 GT, bit 1 LT, bit 0 EQ. -/
def flagBits (f : Flags) : BitVec 3 := BitVec.ofBool f.gt ++ BitVec.ofBool f.lt ++ BitVec.ofBool f.eq

/-- The number the host shows for an `Int` event: the value read as two's complement (R192). -/
def shownInt (v : Word) : Int := v.toInt

/-- The final state surfaced for diagnosis (R204): the status with the fault's information, the registers, `pc`, `lr`
and the flags. -/
structure Snapshot where
  status : RunStatus
  gpr : Vector Word 32
  pc : Word
  lr : Word
  flags : Flags
deriving DecidableEq, Repr

/-- Take the snapshot of R204. -/
def snapshot (s : State) : Snapshot := ⟨s.status, s.gpr, s.pc, s.lr, s.flags⟩

end Sys2Proof.Machine
end

