-- ==== Sys2Proof/Tests/Slice0.lean ====
section
/-! SUPPORT. Our own tests: decoding of words written out from the spec's encodings, the well-formedness smoke tests,
single steps whose results are those of spec/95_test_vectors.md (the vector's id stands beside each), and for every
obligation with hypotheses a witness that meets them (`witness_` and the obligation's name). -/

namespace Sys2Proof.Tests

open Sys2Proof.Machine Sys2Proof.Safety

/-! ## Decoding: words written out bit by bit from 30_encoding.md R71 to R80 -/

theorem test_decode_integer_regs :
    [0b00000000000000110000000100000010, 0b00000001000001000000010100000110, 0b00000010000001110000100000001001,
      0b00000011000010100000101100001100, 0b00000100000011010000111000001111, 0b00000101000111110001111000011101].map
        (decodeTableWord 32) =
      [some (.add 3 1 2), some (.sub 4 5 6), some (.mul 7 8 9), some (.and 10 11 12), some (.or 13 14 15),
        some (.xor 31 30 29)] := by decide

theorem test_decode_integer_imm :
    [0b00000110000000010000001000001100, 0b00000111000000010000001000000011, 0b00001000000000010000001000000110,
      0b00001001000000010000001011111111, 0b00001010000000010000001000110100, 0b00001011000000010000001000001111].map
        (decodeTableWord 32) =
      [some (.addi 1 2 12), some (.subi 1 2 3), some (.muli 1 2 6), some (.andi 1 2 255), some (.ori 1 2 52),
        some (.xori 1 2 15)] := by decide

theorem test_decode_not_shifts :
    [0b00001100000000010000001010101011, 0b00001101000000010000001000010000,
      0b00001110000000010000001000011111].map (decodeTableWord 32) =
      [some (.not 1 2), some (.shl 1 2 16), some (.shr 1 2 31)] := by decide

theorem test_decode_float :
    [0b00001111000000110000000100000010, 0b00010000000000110000000100000010, 0b00010001000000110000000100000010,
      0b00010010000000110000000100000010].map (decodeTableWord 32) =
      [some (.fadd 3 1 2), some (.fsub 3 1 2), some (.fmul 3 1 2), some (.fdiv 3 1 2)] := by decide

theorem test_decode_set_compare :
    [0b00010011000000001000000000000101, 0b00010100000000010000001000000000, 0b00010101000000010000001011111111,
      0b00010110000000010001001000110100].map (decodeTableWord 32) =
      [some (.seti 0 0x8005), some (.cmp 1 2), some (.fcmp 1 2), some (.cmpi 1 0x1234)] := by decide

theorem test_decode_branch :
    [0b00010111000000000000000000000011, 0b00011000000000000000000000000100, 0b00011001111111111111111111111110,
      0b00011010000000000000000000000010, 0b00011011000000000000000000000011, 0b00011100100000000000000000000010,
      0b00011101000000010000001000000101].map (decodeTableWord 32) =
      [some (.b 3), some (.beq 4), some (.bne 0xFFFFFE), some (.bgt 2), some (.blt 3), some (.bge 0x800002),
        some (.ble 0x010205)] := by decide

theorem test_decode_link_branch :
    [0b00011110000000000000000000000101, 0b00011111000000000000000000000100, 0b00100000000000000000000000000100,
      0b00100001000000000000000000000011, 0b00100010000000000000000000000010, 0b00100011000000000000000000000010,
      0b00100100111111111111111111111111].map (decodeTableWord 32) =
      [some (.bl 5), some (.beql 4), some (.bnel 4), some (.bgtl 3), some (.bltl 2), some (.bgel 2),
        some (.blel 0xFFFFFF)] := by decide

theorem test_decode_return_branch :
    [0b00100101000000000000000000000000, 0b00100110000000000000000000000001, 0b00100111000000000000000000000000,
      0b00101000000000000000000000000000, 0b00101001000000000000000000000000, 0b00101010000000000000000000000000,
      0b00101011111111110000000000000000].map (decodeTableWord 32) =
      [some .blr, some .beqlr, some .bnelr, some .bgtlr, some .bltlr, some .bgelr, some .blelr] := by decide

theorem test_decode_lr_moves :
    [0b00101100000001010000000000000000, 0b00101101001000000000000000000000].map (decodeTableWord 32) =
      [some (.mflr 5), some (.mtlr 32)] := by decide

theorem test_decode_load_store :
    [0b00101110000000110000001000000011, 0b00101111000000110000001000000001, 0b00110000000000110000001011111100,
      0b00110001000000010000001000000101, 0b00110010000000010000001000000010,
      0b00110011000000010000001000000000].map (decodeTableWord 32) =
      [some (.ldb 3 2 3), some (.ldh 3 2 1), some (.ldw 3 2 252), some (.stb 1 2 5), some (.sth 1 2 2),
        some (.stw 1 2 0)] := by decide

theorem test_decode_syscall :
    [0b00110100000000010000001100000000, 0b00110100000001001111111111111111].map (decodeTableWord 32) =
      [some (.syscall 1 3), some (.syscall 4 255)] := by decide

/-- Opcode bytes 0x35 and 0xFF are at or above the reference `OPCODE_COUNT` (D-1, D-2). -/
theorem test_decode_invalid :
    decode referenceConfig 0x35000000 = .error (.invalidOpcode 0x35) ∧
      decode referenceConfig 0xFF010203 = .error (.invalidOpcode 0xFF) ∧ decodeTableWord 32 0x35000000 = none := by
  decide

/-- Three bytes are not one word (R90). -/
theorem test_decode_bytes_short : decodeBytes referenceConfig [0, 3, 1] = .error .notOneWord := by decide

/-- L1-1, L1-2 and the unused byte of `NOT`, which the assembler writes as zero (R104). -/
theorem test_encode :
    encode referenceConfig (.seti 0 5) = some 0x13000005 ∧ encode referenceConfig (.add 3 1 2) = some 0x00030102 ∧
      encode referenceConfig (.not 1 2) = some 0x0C010200 := by decide

/-! ## Well-formedness: one ill-formed term per check -/

/-- A register byte of 32 (R88). -/
theorem test_wellFormed_register :
    Instr.wellFormed referenceConfig (.add 3 1 32) = false ∧ Instr.wellFormed referenceConfig (.add 31 31 31) = true := by
  decide

/-- An unknown syscall kind (R89), and `HALT`, whose register byte is not checked (R190). -/
theorem test_wellFormed_kind :
    Instr.wellFormed referenceConfig (.syscall 5 0) = false ∧ Instr.wellFormed referenceConfig (.syscall 4 255) = true := by
  decide

/-- A mnemonic without an opcode (R80). -/
theorem test_wellFormed_live :
    Instr.wellFormed { referenceConfig with opcodes := [.add] } (.sub 1 2 3) = false := by decide

theorem test_referenceConfig_wf : referenceConfig.wf := by decide

/-! ## Single steps -/

/-- A state with a 16-word program (all words zero), the given index, registers, flags and link register. -/
def base (p : Word) (regs : List (Fin 32 × Word)) (f : Flags := ⟨false, false, false⟩) (lr : Word := 77) : State :=
  regs.foldl (fun s r => s.setReg r.1 r.2) { State.reset with codeWords := 16, pc := p, flags := f, lr := lr }

/-- What a step gives with the word stored where it fetches. -/
def after (w : Nat) (s : State) : Option State :=
  match step (s.withFetchWord 32 w) with
  | .next t => some t
  | _ => none

/-- A register and the `pc` after the step. -/
def regPc (j : Fin 32) (w : Nat) (s : State) : Option (Word × Word) := (after w s).map fun t => (t.reg j, t.pc)

/-- The next `pc` and `lr`. -/
def pcLr (w : Nat) (s : State) : Option (Word × Word) := (after w s).map fun t => (t.pc, t.lr)

/-- The flags after the step. -/
def flagsAfter (w : Nat) (s : State) : Option Flags := (after w s).map fun t => t.flags

/-- Status, `pc` and draws taken. -/
def statusPc (w : Nat) (s : State) : Option (RunStatus × Word × Nat) :=
  (after w s).map fun t => (t.status, t.pc, t.draws)

/-- A-2, A-4. -/
theorem test_add :
    regPc 3 0x00030102 (base 0 [(1, 0xFFFFFFFF), (2, 1)]) = some (0, 1) ∧
      regPc 1 0x00010101 (base 0 [(1, 21)]) = some (42, 1) := by decide

/-- A-6. -/
theorem test_sub : regPc 3 0x01030102 (base 0 [(1, 3), (2, 5)]) = some (0xFFFFFFFE, 1) := by decide

/-- A-8, A-9. -/
theorem test_mul :
    regPc 3 0x02030102 (base 0 [(1, 0x10000), (2, 0x10000)]) = some (0, 1) ∧
      regPc 3 0x02030102 (base 0 [(1, 0xFFFFFFFF), (2, 0xFFFFFFFF)]) = some (1, 1) := by decide

/-- A-10 to A-12. -/
theorem test_logic :
    regPc 3 0x03030102 (base 0 [(1, 0xF0F0), (2, 0xFF00)]) = some (0xF000, 1) ∧
      regPc 3 0x04030102 (base 0 [(1, 0xF0F0), (2, 0xFF00)]) = some (0xFFF0, 1) ∧
      regPc 3 0x05030102 (base 0 [(1, 0xF0F0), (2, 0xFF00)]) = some (0x0FF0, 1) := by decide

/-- A-14, under both extensions (D9). -/
theorem test_addi :
    regPc 1 0x060102FF (base 0 [(2, 10)]) = some (265, 1) ∧
      regPc 1 0x060102FF { base 0 [(2, 10)] with cfg := { referenceConfig with imm8Ext := .sign } } = some (9, 1) := by
  decide

/-- A-15 to A-17. -/
theorem test_subi_muli :
    regPc 1 0x07010203 (base 0 [(2, 10)]) = some (7, 1) ∧ regPc 1 0x07010201 (base 0 [(2, 0)]) = some (0xFFFFFFFF, 1) ∧
      regPc 1 0x08010206 (base 0 [(2, 7)]) = some (42, 1) := by decide

/-- A-18 to A-21. -/
theorem test_logic_imm_not :
    regPc 1 0x090102FF (base 0 [(2, 0x12345678)]) = some (0x78, 1) ∧
      regPc 1 0x0A010234 (base 0 [(2, 0x1200)]) = some (0x1234, 1) ∧
      regPc 1 0x0B01020F (base 0 [(2, 0xFF)]) = some (0xF0, 1) ∧
      regPc 1 0x0C0102AB (base 0 [(2, 0xFFFF)]) = some (0xFFFF0000, 1) := by decide

/-- A-23, A-26 under both kinds (D10). -/
theorem test_shifts :
    regPc 1 0x0D01021F (base 0 [(2, 3)]) = some (0x80000000, 1) ∧
      regPc 1 0x0E01021F (base 0 [(2, 0x80000000)]) = some (1, 1) ∧
      regPc 1 0x0E01021F { base 0 [(2, 0x80000000)] with cfg := { referenceConfig with shrKind := .arithmetic } } =
        some (0xFFFFFFFF, 1) := by decide

/-- A-24, A-27: a shift by 32 or more runs on, its result a draw. -/
theorem test_shift_out_of_range :
    statusPc 0x0D010220 (base 0 [(2, 3)]) = some (.running, 1, 1) ∧
      statusPc 0x0E0102FF (base 0 [(2, 3)]) = some (.running, 1, 1) := by decide

/-- F-1, F-2, F-3. -/
theorem test_fadd :
    floatAdd 0x3F800000 0x40000000 = .value 0x40400000 ∧ floatAdd 0x3DCCCCCD 0x3E4CCCCD = .value 0x3E99999A ∧
      floatAdd 0x4B800000 0x3F800000 = .value 0x4B800000 := by decide

/-- F-4, F-5, F-6, F-7. -/
theorem test_fadd_special :
    floatAdd 0x80000000 0x00000000 = .value 0 ∧ floatAdd 0x80000000 0x80000000 = .value 0x80000000 ∧
      floatAdd 0x7F7FFFFF 0x7F7FFFFF = .value 0x7F800000 ∧ floatAdd 0x7F800000 0xFF800000 = .anyNan := by decide

/-- F-8, F-9. -/
theorem test_fsub :
    floatSub 0x3FC00000 0x40200000 = .value 0xBF800000 ∧ floatSub 0x80000000 0x00000000 = .value 0x80000000 := by decide

/-- F-10 to F-15. -/
theorem test_fmul :
    floatMul 0x40000000 0x40400000 = .value 0x40C00000 ∧ floatMul 0x7F7FFFFF 0x40000000 = .value 0x7F800000 ∧
      floatMul 0x00800000 0x3F000000 = .value 0x00400000 ∧ floatMul 0x00000001 0x3F000000 = .value 0 ∧
      floatMul 0x00000003 0x3F000000 = .value 2 ∧ floatMul 0xC0000000 0 = .value 0x80000000 := by decide

/-- F-16, F-17, F-18, F-20, F-21, F-22. -/
theorem test_fdiv :
    floatDiv 0x40400000 0x40000000 = .value 0x3FC00000 ∧ floatDiv 0x3F800000 0x40400000 = .value 0x3EAAAAAB ∧
      floatDiv 0x3F800000 0 = .value 0x7F800000 ∧ floatDiv 0x3F800000 0x80000000 = .value 0xFF800000 ∧
      floatDiv 0 0 = .anyNan ∧ floatDiv 0x3F800000 0xFF800000 = .value 0x80000000 := by decide

/-- F-1, F-8, F-10, F-16 as steps. -/
theorem test_float_steps :
    regPc 3 0x0F030102 (base 0 [(1, 0x3F800000), (2, 0x40000000)]) = some (0x40400000, 1) ∧
      regPc 3 0x10030102 (base 0 [(1, 0x3FC00000), (2, 0x40200000)]) = some (0xBF800000, 1) ∧
      regPc 3 0x11030102 (base 0 [(1, 0x40000000), (2, 0x40400000)]) = some (0x40C00000, 1) ∧
      regPc 3 0x12030102 (base 0 [(1, 0x40400000), (2, 0x40000000)]) = some (0x3FC00000, 1) := by decide

/-- F-21 as a step: it runs on, its result some NaN. -/
theorem test_fdiv_nan : statusPc 0x12030102 (base 0 []) = some (.running, 1, 1) := by decide

/-- C-1, C-2. -/
theorem test_seti :
    regPc 0 0x13000005 (base 0 []) = some (5, 1) ∧ regPc 1 0x1301FFFF (base 0 [(1, 0x12345678)]) = some (0xFFFF, 1) := by
  decide

/-- C-3, C-4 under both signednesses (D12). -/
theorem test_cmp :
    flagsAfter 0x14010200 (base 0 [(1, 5), (2, 3)] ⟨false, true, true⟩) = some ⟨true, false, false⟩ ∧
      flagsAfter 0x14010200 (base 0 [(1, 0xFFFFFFFF), (2, 1)]) = some ⟨true, false, false⟩ ∧
      flagsAfter 0x14010200
        { base 0 [(1, 0xFFFFFFFF), (2, 1)] with cfg := { referenceConfig with cmpSigned := true } } =
        some ⟨false, true, false⟩ := by decide

/-- C-6 to C-10. -/
theorem test_fcmp :
    flagsAfter 0x15010200 (base 0 [(1, 0x3F800000), (2, 0x40000000)]) = some ⟨false, true, false⟩ ∧
      flagsAfter 0x15010200 (base 0 [(1, 0x80000000), (2, 0)]) = some ⟨false, false, true⟩ ∧
      flagsAfter 0x15010200 (base 0 [(1, 0x7FC00000), (2, 0)]) = some ⟨false, false, false⟩ ∧
      flagsAfter 0x15010200 (base 0 [(1, 0x7F800000), (2, 0x7F7FFFFF)]) = some ⟨true, false, false⟩ := by decide

/-- C-11 to C-13. -/
theorem test_cmpi :
    flagsAfter 0x16010005 (base 0 [(1, 5)]) = some ⟨false, false, true⟩ ∧
      flagsAfter 0x16010001 (base 0 [(1, 0xFFFFFFFF)]) = some ⟨true, false, false⟩ ∧
      flagsAfter 0x1601FFFF (base 0 [(1, 0x10000)]) = some ⟨true, false, false⟩ := by decide

/-- B-1, B-3 to B-7. -/
theorem test_b_beq_bne :
    pcLr 0x17000003 (base 2 []) = some (5, 77) ∧ pcLr 0x17FFFFFF (base 0 []) = some (0xFFFFFFFF, 77) ∧
      pcLr 0x18000004 (base 10 [] ⟨false, false, true⟩) = some (14, 77) ∧
      pcLr 0x18000004 (base 10 [] ⟨true, false, false⟩) = some (11, 77) ∧
      pcLr 0x19FFFFFE (base 7 [] ⟨true, false, false⟩) = some (5, 77) ∧ pcLr 0x19000003 (base 1 []) = some (4, 77) := by
  decide

/-- B-8 to B-12. -/
theorem test_bgt_blt_bge_ble :
    pcLr 0x1A000002 (base 0 [] ⟨true, false, false⟩) = some (2, 77) ∧
      pcLr 0x1B000003 (base 4 [] ⟨false, true, false⟩) = some (7, 77) ∧
      pcLr 0x1C000002 (base 1 [] ⟨false, false, true⟩) = some (3, 77) ∧ pcLr 0x1C000002 (base 1 []) = some (2, 77) ∧
      pcLr 0x1D000005 (base 3 [] ⟨true, false, false⟩) = some (4, 77) := by decide

/-- B-13 to B-15, the last under both values of `LINK_IF_NOT_TAKEN` (D20). -/
theorem test_bl_beql_bnel :
    pcLr 0x1E000005 (base 3 []) = some (8, 3) ∧ pcLr 0x1F000004 (base 2 [] ⟨false, false, true⟩) = some (6, 2) ∧
      pcLr 0x20000004 (base 2 [] ⟨false, false, true⟩) = some (3, 77) ∧
      pcLr 0x20000004
        { base 2 [] ⟨false, false, true⟩ with cfg := { referenceConfig with linkIfNotTaken := true } } =
        some (3, 2) := by decide

/-- B-16 to B-19. -/
theorem test_bgtl_bltl_bgel_blel :
    pcLr 0x21000003 (base 0 [] ⟨true, false, false⟩) = some (3, 0) ∧
      pcLr 0x22000002 (base 5 [] ⟨false, true, false⟩) = some (7, 5) ∧
      pcLr 0x23000002 (base 5 [] ⟨false, false, true⟩) = some (7, 5) ∧
      pcLr 0x24000002 (base 5 [] ⟨true, false, false⟩) = some (6, 77) := by decide

/-- B-20, B-21, B-23, B-24. -/
theorem test_blr_beqlr_bnelr :
    pcLr 0x25000000 (base 0 [] ⟨false, false, false⟩ 3) = some (4, 3) ∧
      pcLr 0x25000000 (base 2 [] ⟨false, false, false⟩ 0xFFFFFFFF) = some (0, 0xFFFFFFFF) ∧
      pcLr 0x26000000 (base 0 [] ⟨false, false, true⟩ 3) = some (4, 3) ∧
      pcLr 0x27000000 (base 9 [] ⟨false, false, true⟩ 3) = some (10, 3) := by decide

/-- B-25 to B-28. -/
theorem test_bgtlr_bltlr_bgelr_blelr :
    pcLr 0x28000000 (base 2 [] ⟨true, false, false⟩ 0) = some (1, 0) ∧
      pcLr 0x29000000 (base 2 [] ⟨false, true, false⟩ 6) = some (7, 6) ∧
      pcLr 0x2A000000 (base 2 [] ⟨true, false, false⟩ 6) = some (7, 6) ∧
      pcLr 0x2B000000 (base 12 [] ⟨true, false, false⟩ 6) = some (13, 6) := by decide

/-- B-29 to B-31. -/
theorem test_mflr_mtlr :
    regPc 5 0x2C050000 (base 0 [] ⟨false, false, false⟩ 3) = some (3, 1) ∧
      pcLr 0x2D050000 (base 0 [(5, 9)]) = some (1, 9) ∧ pcLr 0x2D200000 (base 0 []) = some (0, 77) := by decide

/-- `base` with the bytes 11 22 33 44 at 0x100 (`B4`). -/
def withB4 (regs : List (Fin 32 × Word)) : State :=
  let s := base 0 regs
  { s with codeWords := 4, mem := s.mem.writeAll (cellsFrom 0x100 [0x11, 0x22, 0x33, 0x44]) }

/-- The bytes at an address and the next after the step. -/
def bytesAt (a n : Nat) (w : Nat) (s : State) : Option (List Byte) :=
  (after w s).map fun t => (List.range n).map fun i => t.mem.read (a + i)

/-- M-1, M-2 under `LOAD_EXT = sign`, M-3. -/
theorem test_ldb_ldh :
    regPc 3 0x2E030203 (withB4 [(2, 0x100)]) = some (0x44, 1) ∧
      regPc 3 0x2E030200
        { withB4 [(2, 0x100)] with cfg := { referenceConfig with loadExt := .sign }, mem := [(0x100, 0x80)] } =
        some (0xFFFFFF80, 1) ∧
      regPc 3 0x2F030201 (withB4 [(2, 0x100)]) = some (0x2233, 1) := by decide

/-- M-6, M-7. -/
theorem test_ldw :
    regPc 3 0x300302FC (withB4 [(2, 0x104)]) = some (0x11223344, 1) ∧
      regPc 2 0x30020200 (withB4 [(2, 0x100)]) = some (0x11223344, 1) := by decide

/-- M-4, M-5, M-8. -/
theorem test_load_faults :
    statusPc 0x2F030200 (withB4 [(2, 1023)]) = some (.faulted (.memoryFault 1024 .load), 0, 0) ∧
      statusPc 0x2F030200 (withB4 [(2, 15)]) = some (.faulted (.memoryFault 15 .load), 0, 0) ∧
      statusPc 0x30030200 (withB4 [(2, 0xFFFFFFFE)]) = some (.faulted (.memoryFault 0xFFFFFFFE .load), 0, 0) := by
  decide

/-- M-9 to M-12, M-16. -/
theorem test_stores :
    bytesAt 0x105 1 0x31010205 (withB4 [(1, 0x12345678), (2, 0x100)]) = some [0x78] ∧
      bytesAt 0xFF 1 0x310102FF (withB4 [(1, 0xAB), (2, 0x100)]) = some [0xAB] ∧
      bytesAt 0x102 2 0x32010202 (withB4 [(1, 0x12345678), (2, 0x100)]) = some [0x56, 0x78] ∧
      bytesAt 0x100 4 0x33010200 (withB4 [(1, 0x55667788), (2, 0x100)]) = some [0x55, 0x66, 0x77, 0x88] ∧
      bytesAt 0x100 4 0x33020200 (withB4 [(2, 0x100)]) = some [0, 0, 1, 0] := by decide

/-- M-13, M-14, M-15. -/
theorem test_store_faults :
    (after 0x33010200 (withB4 [(1, 0x11223344), (2, 1021)])).map (fun t => t.status) =
        some (.faulted (.memoryFault 1024 .store)) ∧
      (after 0x33010200 (withB4 [(2, 12)])).map (fun t => t.status) = some (.faulted (.memoryFault 12 .store)) ∧
      (after 0x33012000 (withB4 [(2, 12)])).map (fun t => t.status) = some (.faulted (.invalidRegister 32)) := by decide

/-- S-2, S-3, S-6. -/
theorem test_print_kinds :
    (after 0x34000400 (base 0 [(4, 0x141)])).map (fun t => t.out) = some [.char 0x41] ∧
      (after 0x34010300 (base 0 [(3, 8)])).map (fun t => t.out) = some [.int 8] ∧
      (after 0x34020300 (base 0 [(3, 0x40400000)])).map (fun t => t.out) = some [.float 0x40400000] := by decide

/-- S-7, S-9, S-10, S-11. -/
theorem test_qmb_halt_invalid :
    regPc 5 0x34030500 (withB4 []) = some (16, 1) ∧ statusPc 0x3404FFFF (base 4 []) = some (.halted, 5, 0) ∧
      statusPc 0x34052000 (base 0 []) = some (.faulted (.invalidSyscall 5), 0, 0) ∧
      statusPc 0x34012000 (base 0 []) = some (.faulted (.invalidRegister 32), 0, 0) := by decide

/-- A-29, X-4: the first register byte, and the opcode before any register. -/
theorem test_fault_priority :
    statusPc 0x00FF2102 (base 0 []) = some (.faulted (.invalidRegister 255), 0, 0) ∧
      statusPc 0xFF202020 (base 0 []) = some (.faulted (.invalidOpcode 0xFF), 0, 0) := by decide

/-! ## Reset, load and run status -/

/-- X-2: the empty image faults at its first fetch. -/
theorem test_reset_step :
    (match step State.reset with
      | .next t => some (t.status, t.pc)
      | _ => none) = some (.faulted (.memoryFault 0 .fetch), 0) := by decide

/-- The reset state is the load of the empty image. -/
theorem test_reset_is_load : loadImage referenceConfig referenceLaunch [] = some State.reset := by decide

/-- X-1 with P1's first word: an image of one word. -/
theorem test_load_word :
    (loadImage referenceConfig referenceLaunch [0x13, 1, 0, 5]).map (fun s => (s.codeSize, s.reg 0, fetchWord s)) =
      some (4, 0x400, .ok 0x13010005) := by decide

/-- A configuration of four bytes refuses an image of eight, and any image of three (X-3 in small). -/
theorem test_load_refused :
    loadImage { referenceConfig with memSize := 4 } referenceLaunch [0, 0, 0, 0, 0, 0, 0, 0] = none ∧
      loadImage referenceConfig referenceLaunch [0, 0, 0] = none := by decide

/-- A halted block has no next step (R34). -/
theorem test_halted_stuck : step { State.reset with status := .halted } = .fault .notRunning := rfl

/-- The reset state meets the standing facts. -/
theorem test_reset_memory_wf : State.reset.mem.wf := by decide

/-- `withFetchWord` places the word that the next step fetches. -/
theorem test_withFetchWord : fetchWord (State.reset.withFetchWord 32 0x00030102) = .ok 0x00030102 := by decide

/-! ## Witnesses: concrete states and operands that meet the hypotheses of the obligations -/

/-- A test on the next state of an outcome. -/
def nextHas (r : Result) (p : State → Bool) : Bool :=
  match r with
  | .next t => p t
  | _ => false

theorem exists_next {r : Result} {P : State → Prop} [DecidablePred P] (h : nextHas r (fun t => decide (P t)) = true) :
    ∃ t, r = .next t ∧ P t := by
  cases r with
  | next t => exact ⟨t, rfl, of_decide_eq_true h⟩
  | fault f => cases h
  | refused f => cases h

/-- A state with a word placed where it fetches. -/
def placed (w : Nat) (s : State) : State := s.withFetchWord 32 w

theorem witness_EncodeThenDecode :
    referenceConfig.wf ∧ (Instr.add 0 31 255).live referenceConfig = true ∧
      (Instr.syscall 4 0).live referenceConfig = true := by decide

theorem witness_DecodeThenEncode :
    referenceConfig.wf ∧ decode referenceConfig 0x000000FF = .ok (.add 0 0 255) ∧
      decode referenceConfig 0x3404FFFF = .ok (.syscall 4 255) := by decide

theorem witness_UnusedBytesIgnored :
    referenceConfig.opcodes[(opcodeByte 0x0C0102AB).toNat]? = some .not ∧
      (placed 0x0C0102AB (base 0 [])).cfg = referenceConfig ∧ (placed 0x0C0102AB (base 0 [])).status = .running ∧
      fetchWord (placed 0x0C0102AB (base 0 [])) = .ok 0x0C0102AB ∧
      encode referenceConfig (.not 1 2) = some 0x0C010200 := by decide

/-- The last live opcode and the first illegal one. -/
theorem witness_OpcodesAreDense :
    (opcodeByte 0x34000000).toNat < referenceConfig.opcodes.length ∧
      referenceConfig.opcodes.length ≤ (opcodeByte 0x35000000).toNat := by decide

/-- A handler that does not fault and one that does. -/
theorem witness_StepRunsDecodedInstruction :
    (placed 0x00030102 (base 0 [])).status = .running ∧ Fetches (placed 0x00030102 (base 0 [])) (.add 3 1 2) ∧
      (∃ t, exec (.add 3 1 2) (placed 0x00030102 (base 0 [])) = .next t ∧ t.status.isFaulted = false) ∧
      Fetches (placed 0x00200102 (base 0 [])) (.add 32 1 2) ∧
      ∃ t, exec (.add 32 1 2) (placed 0x00200102 (base 0 [])) = .next t ∧ t.status.isFaulted = true :=
  ⟨by decide, ⟨0x00030102, by decide, by decide⟩, exists_next (by decide), ⟨0x00200102, by decide, by decide⟩,
    exists_next (by decide)⟩

/-- The word after the last one, a code region cut off by the memory, and the last word. -/
theorem witness_FetchChecksCodeRegion :
    (base 16 []).status = .running ∧ (base 16 []).codeSize ≤ 4 * (base 16 []).pc.toNat ∧
      (∀ s ∈ [{ base 8 [] with cfg := { referenceConfig with memSize := 32 } }],
        s.status = .running ∧ 4 * s.pc.toNat < s.codeSize ∧ s.cfg.memSize ≤ 4 * s.pc.toNat) ∧
      4 * (base 15 []).pc.toNat < (base 15 []).codeSize ∧ 4 * (base 15 []).pc.toNat < (base 15 []).cfg.memSize := by
  decide

theorem witness_IllegalOpcodeRaises :
    (placed 0x35000000 (base 0 [])).status = .running ∧ fetchWord (placed 0x35000000 (base 0 [])) = .ok 0x35000000 ∧
      (placed 0x35000000 (base 0 [])).cfg.opcodes.length ≤ (opcodeByte 0x35000000).toNat := by decide

theorem witness_NonBranchAdvancesByOne :
    Fetches (placed 0x3404FFFF (base 4 [])) (.syscall 4 255) ∧ (Instr.syscall 4 255).mnemonic.format ≠ .imm24 ∧
      (Instr.syscall 4 255).mnemonic.format ≠ .empty ∧
      ∃ t, step (placed 0x3404FFFF (base 4 [])) = .next t ∧ t.status.isFaulted = false :=
  ⟨⟨0x3404FFFF, by decide, by decide⟩, by decide, by decide, exists_next (by decide)⟩

theorem witness_IntegerRegistersResult : Names 0 0 ∧ Names 31 31 ∧ Names 31 31 := by decide

/-- Both extensions of the immediate 0x80. -/
theorem witness_IntegerImmediateResult :
    Names 31 31 ∧ Names 0 0 ∧
      ((base 0 []).cfg.imm8Ext = .zero ∧ (0x80 : Word) = BitVec.ofNat 32 (0x80 : Byte).toNat) ∧
      (∀ s ∈ [{ base 0 [] with cfg := { referenceConfig with imm8Ext := .sign } }],
        s.cfg.imm8Ext = .sign ∧ (0xFFFFFF80 : Word) = BitVec.ofInt 32 (0x80 : Byte).toInt) := by decide

theorem witness_NotResult : Names 31 31 ∧ Names 31 31 := by decide

/-- Amounts 0 and 31, and both kinds of right shift. -/
theorem witness_ShiftResult :
    Names 31 31 ∧ Names 0 0 ∧ (0 : Byte).toNat < 32 ∧ (31 : Byte).toNat < 32 ∧
      (base 0 []).cfg.shrKind = .logical ∧
      (∀ s ∈ [{ base 0 [] with cfg := { referenceConfig with shrKind := .arithmetic } }],
        s.cfg.shrKind = .arithmetic) := by decide

theorem witness_ShiftBeyondWidthRuns :
    Names 31 31 ∧ Names 0 0 ∧ 32 ≤ (32 : Byte).toNat ∧ 32 ≤ (255 : Byte).toNat := by decide

theorem witness_FloatArithmeticCompletes : Names 0 0 ∧ Names 31 31 ∧ Names 0 0 := by decide

/-- The least value that rounds to infinity, the greatest that does not, and a tie between 0 and 1. -/
theorem witness_RoundingIsNearestEven :
    0 < 1 ∧ 1 * ((2 ^ 25 - 1) * 2 ^ 253) ≤ 2 * ((2 ^ 25 - 1) * 2 ^ 252) ∧
      2 * ((2 ^ 25 - 1) * 2 ^ 252 - 1) < 1 * ((2 ^ 25 - 1) * 2 ^ 253) ∧
      2 * 1 < 2 * ((2 ^ 25 - 1) * 2 ^ 253) ∧ 1 < infBits ∧ 1 ≠ roundMag 1 2 ∧
      Safety.dist (1 : Nat) ((2 * magOf (roundMag 1 2) : Nat)) = Safety.dist (1 : Nat) ((2 * magOf 1 : Nat)) := by
  decide

/-- 1.0 divided by 3.0; the greatest finite value plus half a step, which is the boundary to infinity; and 16777216.0 plus
1.0, with 16777218.0 as near as the result. -/
theorem witness_FloatResultIsNearest :
    (Names 3 3 ∧ Names 1 1 ∧ Names 2 2 ∧ 0 < 1 ∧ 0 < 2 ^ 149) ∧
      (∀ s ∈ [base 0 [(1, 0x3F800000), (2, 0x40400000)]],
        floatClass (s.reg 1) = .fin false (2 ^ 149) ∧ floatClass (s.reg 2) = .fin false (3 * 2 ^ 149) ∧ 0 < 3 * 2 ^ 149 ∧
          2 * (withSign (false != false) (2 ^ 149 * 2 ^ 149)).natAbs < 3 * 2 ^ 149 * ((2 ^ 25 - 1) * 2 ^ 253)) ∧
      (∀ s ∈ [base 0 [(1, 0x7F7FFFFF), (2, 0x73000000)]],
        floatClass (s.reg 1) = .fin false ((2 ^ 24 - 1) * 2 ^ 253) ∧ floatClass (s.reg 2) = .fin false (2 ^ 252) ∧
          1 * ((2 ^ 25 - 1) * 2 ^ 253) ≤
            2 * (withSign false ((2 ^ 24 - 1) * 2 ^ 253) + withSign false (2 ^ 252)).natAbs) ∧
      ∀ s ∈ [base 0 [(1, 0x4B800000), (2, 0x3F800000)]],
        floatClass (s.reg 1) = .fin false (2 ^ 173) ∧ floatClass (s.reg 2) = .fin false (2 ^ 149) ∧
          floatClass 0x4B800001 = .fin false (2 ^ 173 + 2 ^ 150) ∧
          (∃ t, exec (.fadd 3 1 2) s = .next t ∧ floatClass (t.reg 3) = .fin false (2 ^ 173)) ∧
          Safety.dist (2 ^ 173 + 2 ^ 149) (2 ^ 173) = Safety.dist (2 ^ 173 + 2 ^ 149) (2 ^ 173 + 2 ^ 150) := by
  refine ⟨by decide, by decide, by decide, fun s hs => ?_⟩
  obtain rfl := List.mem_singleton.mp hs
  exact ⟨by decide, by decide, by decide, exists_next (by decide), by decide⟩

/-- One pair of registers for each clause: a NaN, infinities, an infinity and a finite value both ways, a zero sum. -/
theorem witness_FloatSumSpecialResults :
    Names 3 3 ∧ Names 1 1 ∧ Names 2 2 ∧ floatClass ((base 0 [(1, 0x7F800001)]).reg 1) = .nan ∧
      floatClass ((base 0 [(2, 0xFFFFFFFF)]).reg 2) = .nan ∧
      (∀ s ∈ [base 0 [(1, 0x7F800000), (2, 0xFF800000)]],
        floatClass (s.reg 1) = .inf false ∧ floatClass (s.reg 2) = .inf true) ∧
      (∀ s ∈ [base 0 [(1, 0x7F800000), (2, 0x7F7FFFFF)]],
        floatClass (s.reg 1) = .inf false ∧ floatClass (s.reg 2) = .fin false ((2 ^ 24 - 1) * 2 ^ 253)) ∧
      (∀ s ∈ [base 0 [(1, 0x80000000), (2, 0xFF800000)]],
        floatClass (s.reg 1) = .fin true 0 ∧ floatClass (s.reg 2) = .inf true) ∧
      (∀ s ∈ [base 0 [(1, 0x80000000), (2, 0x80000000)]],
        floatClass (s.reg 1) = .fin true 0 ∧ floatClass (s.reg 2) = .fin true 0 ∧
          withSign true 0 + withSign (true ^^ false) 0 = 0 ∧ withSign true 0 + withSign (true ^^ true) 0 = 0) := by
  decide

/-- One pair of registers for each clause, with an infinity against zero and against the least subnormal. -/
theorem witness_FloatProductSpecialResults :
    Names 3 3 ∧ Names 1 1 ∧ Names 2 2 ∧ floatClass ((base 0 [(1, 0xFF800001)]).reg 1) = .nan ∧
      (∀ s ∈ [base 0 [(1, 0xFF800000), (2, 0x7F800000)]],
        floatClass (s.reg 1) = .inf true ∧ floatClass (s.reg 2) = .inf false) ∧
      (∀ s ∈ [base 0 [(1, 0xFF800000), (2, 0)]],
        floatClass (s.reg 1) = .inf true ∧ floatClass (s.reg 2) = .fin false 0) ∧
      (∀ s ∈ [base 0 [(1, 0x80000001), (2, 0x7F800000)]],
        floatClass (s.reg 1) = .fin true 1 ∧ floatClass (s.reg 2) = .inf false) ∧
      (∀ s ∈ [base 0 [(1, 0x80000001), (2, 0x80000000)]],
        floatClass (s.reg 1) = .fin true 1 ∧ floatClass (s.reg 2) = .fin true 0 ∧ 1 * 0 = 0) ∧
      (∀ s ∈ [base 0 [(1, 0x80000000), (2, 1)]],
        floatClass (s.reg 1) = .fin true 0 ∧ floatClass (s.reg 2) = .fin false 1 ∧ 1 ≠ 0) ∧
      (∃ t, exec (.fmul 3 1 2) (base 0 [(1, 0x80000001), (2, 0x40000000)]) = .next t ∧ floatClass (t.reg 3) ≠ .nan) ∧
      ∃ t, exec (.fdiv 3 1 2) (base 0 [(1, 0x80000001), (2, 0)]) = .next t ∧ floatClass (t.reg 3) ≠ .nan :=
  ⟨by decide, by decide, by decide, by decide, by decide, by decide, by decide, by decide, by decide,
    exists_next (by decide), exists_next (by decide)⟩

theorem witness_SetImmediateResult : Names 0 0 ∧ Names 31 31 := by decide

theorem witness_IntegerCompareResult : Names 31 31 ∧ Names 0 0 := by decide

/-- One pair of registers for each clause. -/
theorem witness_FloatCompareResult :
    Names 1 1 ∧ Names 2 2 ∧ floatClass ((base 0 [(1, 0x7FC00000)]).reg 1) = .nan ∧
      (∀ s ∈ [base 0 [(1, 0x80000000), (2, 0)]],
        floatClass (s.reg 1) = .fin true 0 ∧ floatClass (s.reg 2) = .fin false 0) ∧
      (∀ s ∈ [base 0 [(1, 0x7F800000), (2, 0x7F7FFFFF)]],
        floatClass (s.reg 1) = .inf false ∧ floatClass (s.reg 2) = .fin false ((2 ^ 24 - 1) * 2 ^ 253)) ∧
      (∀ s ∈ [base 0 [(1, 0), (2, 0xFF800000)]],
        floatClass (s.reg 1) = .fin false 0 ∧ floatClass (s.reg 2) = .inf true) ∧
      (∀ s ∈ [base 0 [(1, 0xFF800000), (2, 0xFF800000)]],
        floatClass (s.reg 1) = .inf true ∧ floatClass (s.reg 2) = .inf true) := by decide

theorem witness_CompareTrichotomy :
    Names 1 1 ∧ Names 2 2 ∧ (∃ t, exec (.cmp 1 2) (base 0 [(1, 5)]) = .next t ∧ t.pc = 0) ∧
      (∃ t, exec (.cmpi 1 0xFFFF) (base 0 [(1, 5)]) = .next t ∧ t.pc = 0) ∧
      (∃ t, exec (.fcmp 1 2) (base 0 [(1, 0x3F800000)]) = .next t ∧
        floatClass ((base 0 [(1, 0x3F800000)]).reg 1) ≠ .nan ∧ floatClass ((base 0 [(1, 0x3F800000)]).reg 2) ≠ .nan) ∧
      (∃ t, exec (.fcmp 1 2) (base 0 [(1, 0x7F800001)]) = .next t ∧ floatClass ((base 0 [(1, 0x7F800001)]).reg 1) = .nan) ∧
      ∃ s, loadImage referenceConfig { referenceLaunch with flags := ⟨true, true, false⟩ } [] = some s :=
  ⟨by decide, by decide, exists_next (by decide), exists_next (by decide), exists_next (by decide),
    exists_next (by decide), ⟨_, rfl⟩⟩

theorem witness_LinkRegisterMoves : Names 0 0 ∧ Names 31 31 := by decide

/-- A `BL 2` at word 1, and a `BLR` at word 3 with `lr` 1. -/
theorem witness_ReturnGoesAfterCall :
    (placed 0x1E000002 (base 1 [])).status = .running ∧ Fetches (placed 0x1E000002 (base 1 [])) (.bl 2) ∧
      (∃ t, step (placed 0x1E000002 (base 1 [])) = .next t ∧
        (placed 0x25000000 (base 3 [] ⟨false, false, false⟩ 1)).lr = t.lr) ∧
      (placed 0x25000000 (base 3 [] ⟨false, false, false⟩ 1)).status = .running ∧
      Fetches (placed 0x25000000 (base 3 [] ⟨false, false, false⟩ 1)) .blr ∧
      ∃ v, step (placed 0x25000000 (base 3 [] ⟨false, false, false⟩ 1)) = .next v ∧ v.pc = 2 :=
  ⟨by decide, ⟨0x1E000002, by decide, by decide⟩, exists_next (by decide), by decide, ⟨0x25000000, by decide, by decide⟩,
    exists_next (by decide)⟩

/-- Accesses of each width at the first address of the data region (16) and up to its last (1023). -/
theorem witness_LoadResult :
    Names 3 3 ∧ Names 2 2 ∧
      (∀ s ∈ [withB4 [(2, 16)], withB4 [(2, 1020)]], InData s (effAddr s 2 0) ∧ InData s (effAddr s 2 0 + 1) ∧
        InData s (effAddr s 2 0 + 2) ∧ InData s (effAddr s 2 0 + 3)) ∧
      InData (withB4 [(2, 1023)]) (effAddr (withB4 [(2, 1023)]) 2 0) ∧
      InData (withB4 [(2, 1022)]) (effAddr (withB4 [(2, 1022)]) 2 0 + 1) := by decide

/-- The first byte bad below the data region, and the last byte bad above it. -/
theorem witness_LoadFaultsAtFirstBadByte :
    Names 3 3 ∧ Names 2 2 ∧
      ¬ InData (withB4 [(2, 15)]) (effAddr (withB4 [(2, 15)]) 2 0 + BitVec.ofNat 32 0) ∧
      (¬ InData (withB4 [(2, 1021)]) (effAddr (withB4 [(2, 1021)]) 2 0 + BitVec.ofNat 32 3) ∧
        ∀ j < 3, InData (withB4 [(2, 1021)]) (effAddr (withB4 [(2, 1021)]) 2 0 + BitVec.ofNat 32 j)) := by decide

theorem witness_StoreResult :
    Names 1 1 ∧ Names 2 2 ∧
      ∀ n ∈ [1, 2, 4], ∀ i < n, ∀ s ∈ [withB4 [(2, 16)], withB4 [(2, BitVec.ofNat 32 (1024 - n))]],
        InData s (effAddr s 2 0 + BitVec.ofNat 32 i) := by decide

theorem witness_StoreFaultsAtFirstBadByte :
    Names 1 1 ∧ Names 2 2 ∧
      ¬ InData (withB4 [(2, 15)]) (effAddr (withB4 [(2, 15)]) 2 0 + BitVec.ofNat 32 0) ∧
      (¬ InData (withB4 [(2, 1023)]) (effAddr (withB4 [(2, 1023)]) 2 0 + BitVec.ofNat 32 1) ∧
        ∀ j < 1, InData (withB4 [(2, 1023)]) (effAddr (withB4 [(2, 1023)]) 2 0 + BitVec.ofNat 32 j)) := by decide

theorem witness_MixedWidthReadsSeeBigEndian :
    Names 1 1 ∧ Names 2 2 ∧
      ∃ t, exec (.stw 1 2 0) (withB4 [(1, 0x11223344), (2, 1020)]) = .next t ∧ t.status.isFaulted = false :=
  ⟨by decide, by decide, exists_next (by decide)⟩

/-- The state after a `STW r1, r2, 0` at word 0, whose word 1 is `LDW r3, r2, 0`. -/
def storeThenLoad : State :=
  let s := placed 0x33010200 (base 0 [(1, 0x11223344), (2, 1020)])
  { s with mem := s.mem.writeAll (cellsFrom 4 (bytesOfWord 0x30030200)) }

/-- The state `LoadSeesLastStore` calls `t`. -/
def stored : State :=
  { storeThenLoad with pc := 1, mem := storeThenLoad.mem ++ [(1020, 0x11), (1021, 0x22), (1022, 0x33), (1023, 0x44)] }

theorem witness_LoadSeesLastStore :
    Names 1 1 ∧ Names 2 2 ∧ Names 3 3 ∧ storeThenLoad.status = .running ∧ stored.status = .running ∧
      Fetches storeThenLoad (.stw 1 2 0) ∧ (∃ t, step storeThenLoad = .next t ∧ t = stored) ∧
      Fetches stored (.ldw 3 2 0) ∧ ∃ u, step stored = .next u ∧ u.reg 3 = 0x11223344 :=
  ⟨by decide, by decide, by decide, by decide, by decide, ⟨0x33010200, by decide, by decide⟩, exists_next (by decide),
    ⟨0x30030200, by decide, by decide⟩, exists_next (by decide)⟩

theorem witness_PrintCallsResult : (base 0 []).cfg.kinds.all.Nodup ∧ Names 31 31 := by decide

theorem witness_QueryMemoryBeginResult : (base 0 []).cfg.kinds.all.Nodup ∧ Names 31 31 := by decide

theorem witness_HaltResult :
    (placed 0x3404FFFF (base 4 [])).status = .running ∧
      Fetches (placed 0x3404FFFF (base 4 [])) (.syscall (placed 0x3404FFFF (base 4 [])).cfg.kinds.halt 255) :=
  ⟨by decide, ⟨0x3404FFFF, by decide, by decide⟩⟩

theorem witness_UnknownKindFaults :
    (5 : Byte) ∉ (base 0 []).cfg.kinds.all ∧ (255 : Byte) ∉ (base 0 []).cfg.kinds.all := by decide

/-- A bad byte in each of the three places, at the boundary value 32, and in a `SYSCALL`. -/
theorem witness_FirstBadRegisterByteFaults :
    (∀ i ∈ [(Instr.add 32 1 2, [], 32, [1, 2]), (.add 31 32 2, [31], 32, [2]), (.add 0 31 255, [0, 31], 255, []),
        (.syscall 0 32, ([] : List Byte), (32 : Byte), ([] : List Byte))],
      i.1.kindKnown (base 0 []).cfg = true ∧ i.1.regBytes (base 0 []).cfg = i.2.1 ++ i.2.2.1 :: i.2.2.2 ∧
        (∀ x ∈ i.2.1, x.toNat < 32) ∧ 32 ≤ i.2.2.1.toNat) := by decide

/-- A `STW` whose first byte is the last of memory, so that the second fails; and a fault of a word that is no store. -/
theorem witness_FaultsArePrecise :
    (∃ t, step (placed 0x33010200 (withB4 [(2, 1023)])) = .next t ∧ t.status = .faulted (.memoryFault 1024 .store)) ∧
      Names 1 1 ∧ Names 2 2 ∧ PassedStoreByte (placed 0x33010200 (withB4 [(2, 1023)])) 1 2 0 2 4 0 ∧
      (∃ t, step (placed 0x00200102 (base 0 [])) = .next t ∧ t.status = .faulted (.invalidRegister 32)) ∧
      ∀ rs rb off b n j, ¬ PassedStoreByte (placed 0x00200102 (base 0 [])) rs rb off b n j := by
  have hw : fetchWord (placed 0x00200102 (base 0 [])) = .ok 0x00200102 := by decide
  have hd : decode (placed 0x00200102 (base 0 [])).cfg 0x00200102 = .ok (.add 32 1 2) := by decide
  refine ⟨exists_next (by decide), by decide, by decide,
    ⟨.inr ⟨rfl, 0x33010200, by decide, by decide⟩, by decide, by decide⟩, exists_next (by decide), ?_⟩
  rintro rs rb off b n j ⟨⟨-, w, h1, h2⟩ | ⟨-, w, h1, h2⟩, -⟩ <;>
  · rw [hw] at h1
    cases h1
    rw [hd] at h2
    cases h2

/-- A faulting step of each kind. -/
theorem witness_FaultInformation :
    (∃ t, step (base 0xFFFFFFFF []) = .next t ∧ t.status = .faulted (.memoryFault 0x3FFFFFFFC .fetch)) ∧
      (∃ t, step (placed 0x2E030200 (withB4 [(2, 15)])) = .next t ∧ t.status = .faulted (.memoryFault 15 .load)) ∧
      (∃ t, step (placed 0x31010200 (withB4 [(2, 1024)])) = .next t ∧ t.status = .faulted (.memoryFault 1024 .store)) ∧
      (∃ t, step (placed 0x35000000 (base 0 [])) = .next t ∧ t.status = .faulted (.invalidOpcode 0x35)) ∧
      (∃ t, step (placed 0x2C200000 (base 0 [])) = .next t ∧ t.status = .faulted (.invalidRegister 32)) ∧
      ∃ t, step (placed 0x34050000 (base 0 [])) = .next t ∧ t.status = .faulted (.invalidSyscall 5) :=
  ⟨exists_next (by decide), exists_next (by decide), exists_next (by decide), exists_next (by decide),
    exists_next (by decide), exists_next (by decide)⟩

theorem witness_StepKeepsGood :
    Good (placed 0x33010200 (withB4 [(1, 5), (2, 1020)])) ∧
      ∃ t, step (placed 0x33010200 (withB4 [(1, 5), (2, 1020)])) = .next t ∧ t.status = .running :=
  ⟨by decide, exists_next (by decide)⟩

theorem witness_CodeIsImmutable :
    15 < (placed 0x33010200 (withB4 [(2, 1020)])).codeSize ∧
      ∃ t, step (placed 0x33010200 (withB4 [(2, 1020)])) = .next t ∧ t.status = .running :=
  ⟨by decide, exists_next (by decide)⟩

theorem witness_HaltedOnlyByHaltCall :
    ∃ t, step (placed 0x34040000 (base 0 [])) = .next t ∧ t.status = .halted := exists_next (by decide)

theorem witness_FlagsWrittenOnlyByCompares :
    (∃ t, step (placed 0x16010005 (base 0 [(1, 5)])) = .next t ∧ t.flags ≠ (placed 0x16010005 (base 0 [(1, 5)])).flags) ∧
      Names 31 31 ∧ Names 0 0 := ⟨exists_next (by decide), by decide, by decide⟩

/-- `MTLR`, a taken `BL`, and a `BNEL` not taken under `LINK_IF_NOT_TAKEN`. -/
theorem witness_LinkRegisterWriters :
    (Fetches (placed 0x2D050000 (base 0 [(5, 9)])) (.mtlr 5) ∧
        ∃ t, step (placed 0x2D050000 (base 0 [(5, 9)])) = .next t ∧ t.lr ≠ (placed 0x2D050000 (base 0 [(5, 9)])).lr) ∧
      (Fetches (placed 0x1E000005 (base 3 [])) (.bl 5) ∧
        ∃ t, step (placed 0x1E000005 (base 3 [])) = .next t ∧ t.lr ≠ (placed 0x1E000005 (base 3 [])).lr) ∧
      ∀ s ∈ [{ base 2 [] ⟨false, false, true⟩ with cfg := { referenceConfig with linkIfNotTaken := true } }],
        Fetches (placed 0x20000004 s) (.bnel 4) ∧
          ∃ t, step (placed 0x20000004 s) = .next t ∧ t.lr ≠ (placed 0x20000004 s).lr := by
  refine ⟨⟨⟨0x2D050000, by decide, by decide⟩, exists_next (by decide)⟩,
    ⟨⟨0x1E000005, by decide, by decide⟩, exists_next (by decide)⟩, fun s hs => ?_⟩
  obtain rfl := List.mem_singleton.mp hs
  exact ⟨⟨0x20000004, by decide, by decide⟩, exists_next (by decide)⟩

/-- One step for each of the three clauses. -/
theorem witness_RegisterWriters :
    (Fetches (placed 0x0C1F0200 (base 0 [])) (.not 31 2) ∧
        ∃ t, step (placed 0x0C1F0200 (base 0 [])) = .next t ∧ t.reg 31 ≠ (placed 0x0C1F0200 (base 0 [])).reg 31) ∧
      (Fetches (placed 0x13000005 (base 0 [])) (.seti 0 5) ∧
        ∃ t, step (placed 0x13000005 (base 0 [])) = .next t ∧ t.reg 0 ≠ (placed 0x13000005 (base 0 [])).reg 0) ∧
      (Fetches (placed 0x34030500 (base 0 [])) (.syscall 3 5) ∧
        ∃ t, step (placed 0x34030500 (base 0 [])) = .next t ∧ t.reg 5 ≠ (placed 0x34030500 (base 0 [])).reg 5) :=
  ⟨⟨⟨0x0C1F0200, by decide, by decide⟩, exists_next (by decide)⟩,
    ⟨⟨0x13000005, by decide, by decide⟩, exists_next (by decide)⟩,
    ⟨⟨0x34030500, by decide, by decide⟩, exists_next (by decide)⟩⟩

theorem witness_MemoryWrittenOnlyByStores :
    ∃ t, step (placed 0x31010200 (withB4 [(1, 7), (2, 1023)])) = .next t ∧
      t.mem.read 1023 ≠ (placed 0x31010200 (withB4 [(1, 7), (2, 1023)])).mem.read 1023 := exists_next (by decide)

theorem witness_OutputOnlyGrows :
    ∃ t, step (placed 0x34000400 (base 0 [])) = .next t ∧ t.out = [.char 0] := exists_next (by decide)

theorem witness_RunsKeepGoodAndStopWhenEnded :
    ({ State.reset with status := .stopped } : State).status ≠ .running ∧ Good State.reset := by decide

theorem witness_CanonicalMemoriesAreEqual :
    Memory.wf [(3, 1), (5, 255)] ∧ ∀ a, Memory.read [(3, 1), (5, 255)] a = Memory.read [(3, 1), (5, 255)] a :=
  ⟨by decide, fun _ => rfl⟩

/-- Initial data at the first and the last data byte of an image of two words in 16 bytes of memory, the largest image
that fits, one word more, and an image of three bytes. -/
theorem witness_LoadGivesLaunchState :
    ∀ c ∈ [{ referenceConfig with memSize := 16, initData := [(15, 9), (8, 7)] }],
      (c.initData.map Prod.fst).Nodup ∧ c.wf ∧
        (∀ n ∈ [8, 16], (List.replicate n 0#8).length % 4 = 0 ∧ (List.replicate n 0#8).length ≤ c.memSize) ∧
        (∀ cell ∈ c.initData, (List.replicate 8 0#8).length ≤ cell.1 ∧ cell.1 < c.memSize) ∧
        (∀ cell ∈ c.initData, cell.1 ≠ 9) ∧ c.memSize < (List.replicate 20 0#8).length ∧
        (List.replicate 3 0#8).length % 4 ≠ 0 := by decide

theorem witness_HostStopResult :
    State.reset.status = .running ∧ ({ State.reset with status := .halted } : State).status ≠ .running := by decide

end Sys2Proof.Tests
end

-- Proofs of the rules of 10_state.md: what one step changes and keeps, runs, the form of memory, and the load.
section
/-! PROOFS. What one step can change, field by field: the laws of `Effect` that the rules of 10_state.md are read off. -/

namespace Sys2Proof.Machine

open Sys2Proof.Safety

/-! ## Every handler answers with a next state -/

theorem withReg_total {b : Byte} {s : State} {k : Fin 32 → Result} (h : ∀ i, ∃ t, k i = .next t) :
    ∃ t, withReg b s k = .next t := by
  by_cases hb : b.toNat < 32
  · rw [withReg_of_lt hb]
    exact h _
  · exact ⟨_, withReg_of_ge (Nat.not_lt.mp hb) s k⟩

theorem aluRegs_total (f : Word → Word → Word) (rd ra rb : Byte) (s : State) : ∃ t, aluRegs f rd ra rb s = .next t :=
  withReg_total fun _ => withReg_total fun _ => withReg_total fun _ => ⟨_, rfl⟩

theorem aluImm_total (f : Word → Word → Word) (rd ra imm : Byte) (s : State) : ∃ t, aluImm f rd ra imm s = .next t :=
  withReg_total fun _ => withReg_total fun _ => ⟨_, rfl⟩

theorem shiftBy_total (f : Word → Nat → Word) (rd ra amt : Byte) (s : State) : ∃ t, shiftBy f rd ra amt s = .next t :=
  withReg_total fun _ => withReg_total fun _ => ⟨_, rfl⟩

theorem floatRegs_total (f : Word → Word → Computed) (rd ra rb : Byte) (s : State) :
    ∃ t, floatRegs f rd ra rb s = .next t :=
  withReg_total fun _ => withReg_total fun _ => withReg_total fun _ => ⟨_, rfl⟩

theorem compareRegs_total (f : Word → Word → Flags) (ra rb : Byte) (s : State) : ∃ t, compareRegs f ra rb s = .next t :=
  withReg_total fun _ => withReg_total fun _ => ⟨_, rfl⟩

theorem loadBytes_total (n : Nat) (ext : BitVec (8 * n) → Word) (rd rb off : Byte) (s : State) :
    ∃ t, loadBytes n ext rd rb off s = .next t := by
  refine withReg_total fun _ => withReg_total fun b => ?_
  cases memRead s (effAddr s b off) n with
  | ok v => exact ⟨_, rfl⟩
  | error f => exact ⟨_, rfl⟩

theorem memWrite_total (ea : Word) (n : Nat) (v : Word) (s : State) : ∃ t, memWrite ea n v s = .next t := by
  unfold memWrite
  split
  · exact ⟨_, rfl⟩
  · exact ⟨_, rfl⟩

theorem storeBytes_total (n : Nat) (rs rb off : Byte) (s : State) : ∃ t, storeBytes n rs rb off s = .next t :=
  withReg_total fun _ => withReg_total fun _ => memWrite_total ..

theorem execSyscall_total (kind r : Byte) (s : State) : ∃ t, execSyscall kind r s = .next t := by
  unfold execSyscall
  split
  · exact withReg_total fun _ => ⟨_, rfl⟩
  · exact withReg_total fun _ => ⟨_, rfl⟩
  · exact withReg_total fun _ => ⟨_, rfl⟩
  · exact withReg_total fun _ => ⟨_, rfl⟩
  · exact ⟨_, rfl⟩
  · exact ⟨_, rfl⟩

/-- Every instruction has a meaning in every state: no handler stops the model (30_encoding.md R93). -/
theorem exec_total (i : Instr) (s : State) : ∃ t, exec i s = .next t := by
  cases i with
  | add | sub | mul | and | or | xor => exact aluRegs_total ..
  | addi | subi | muli | andi | ori | xori => exact aluImm_total ..
  | shl | shr => exact shiftBy_total ..
  | fadd | fsub | fmul | fdiv => exact floatRegs_total ..
  | cmp | fcmp => exact compareRegs_total ..
  | not rd ra =>
    show ∃ t, execNot rd ra s = .next t
    exact withReg_total fun _ => withReg_total fun _ => ⟨_, rfl⟩
  | seti rd imm =>
    show ∃ t, execSeti rd imm s = .next t
    exact withReg_total fun _ => ⟨_, rfl⟩
  | cmpi ra imm =>
    show ∃ t, execCmpi ra imm s = .next t
    exact withReg_total fun _ => ⟨_, rfl⟩
  | mflr rd =>
    show ∃ t, execMflr rd s = .next t
    exact withReg_total fun _ => ⟨_, rfl⟩
  | mtlr rs =>
    show ∃ t, execMtlr rs s = .next t
    exact withReg_total fun _ => ⟨_, rfl⟩
  | b | beq | bne | bgt | blt | bge | ble => exact ⟨_, rfl⟩
  | bl | beql | bnel | bgtl | bltl | bgel | blel => exact ⟨_, rfl⟩
  | blr | beqlr | bnelr | bgtlr | bltlr | bgelr | blelr => exact ⟨_, rfl⟩
  | ldb | ldh | ldw => exact loadBytes_total ..
  | stb | sth | stw => exact storeBytes_total ..
  | syscall => exact execSyscall_total ..

/-! ## A step as the effect of the fetched instruction -/

theorem fetches_unique {s : State} {i j : Instr} (hi : Fetches s i) (hj : Fetches s j) : i = j := by
  obtain ⟨w, hw, hdi⟩ := hi
  obtain ⟨v, hv, hdj⟩ := hj
  obtain rfl : w = v := Except.ok.inj (hw.symm.trans hv)
  exact Except.ok.inj (hdi.symm.trans hdj)

/-- A step ends on a fault before dispatch, or with the effect of the fetched instruction and the increment
(30_encoding.md R91, R97). -/
theorem step_effect {s t : State} (h : step s = .next t) :
    (∃ f, t = State.raised f s) ∨ ∃ i u, Fetches s i ∧ Effect i s u ∧ t = u.advance := by
  obtain ⟨-, ⟨f, -, rfl⟩ | ⟨w, -, -, -, rfl⟩ | ⟨w, i, u, hw, hi, hu, rfl⟩⟩ := step_next h
  · exact .inl ⟨f, rfl⟩
  · exact .inl ⟨_, rfl⟩
  · exact .inr ⟨i, u, ⟨w, hw, hi⟩, exec_effect hu, rfl⟩

/-- A step whose fetched instruction is known has the effect of that instruction. -/
theorem step_effect_of_fetches {s t : State} {i : Instr} (hi : Fetches s i) (h : step s = .next t) :
    ∃ u, Effect i s u ∧ t = u.advance := by
  obtain ⟨w, hw, hd⟩ := hi
  obtain ⟨u, hu⟩ := exec_total i s
  rw [step_of_decoded (step_next h).1 hw hd, hu] at h
  exact ⟨u, exec_effect hu, (Host.Outcome.next.inj h).symm⟩

theorem step_total {s : State} (hs : s.status = .running) : ∃ t, step s = .next t := by
  cases hf : fetchWord s with
  | error f => exact ⟨_, step_of_fetchFault hs hf⟩
  | ok w =>
    cases hd : decode s.cfg w with
    | error e => exact ⟨_, step_of_invalidOpcode hs hf hd⟩
    | ok i =>
      obtain ⟨u, hu⟩ := exec_total i s
      exact ⟨u.advance, by rw [step_of_decoded hs hf hd, hu, advanceResult_next]⟩

/-! ## The branch operations as updates of `pc` and `lr` -/

theorem branchRel_eq (taken : Bool) (off : BitVec 24) (s : State) :
    branchRel taken off s = { s with pc := if taken then s.pc + off24 off - 1#32 else s.pc } := by
  cases taken <;> rfl

theorem linkBranch_eq (taken : Bool) (off : BitVec 24) (s : State) :
    linkBranch taken off s =
      { s with
        lr := if taken ∨ s.cfg.linkIfNotTaken then s.pc else s.lr
        pc := if taken then s.pc + off24 off - 1#32 else s.pc } := by
  cases taken with
  | true => simp [linkBranch]
  | false => cases hl : s.cfg.linkIfNotTaken <;> simp [linkBranch, hl]

theorem returnBranch_eq (taken : Bool) (s : State) :
    returnBranch taken s = { s with pc := if taken then s.lr else s.pc } := by
  cases taken <;> rfl

/-! ## The configuration and the program length -/

/-- No handler changes the configuration or the program length (10_state.md R35, R43). -/
theorem Effect.sameLoad {i : Instr} {s u : State} (h : Effect i s u) : SameLoad s u := by
  cases h with
  | wrote d c => exact ⟨State.setComputed_cfg .., State.setComputed_codeWords ..⟩
  | branched => simp [SameLoad, branchRel_eq]
  | linked => simp [SameLoad, linkBranch_eq]
  | returned => simp [SameLoad, returnBranch_eq]
  | badRegister | badKind | badLoad | badStore | compared | emitted | halted | stored | movedToLr => exact ⟨rfl, rfl⟩

theorem step_sameLoad {s t : State} (h : step s = .next t) : SameLoad s t := by
  obtain ⟨f, rfl⟩ | ⟨i, u, -, hu, rfl⟩ := step_effect h
  · exact ⟨rfl, rfl⟩
  · simpa [SameLoad] using hu.sameLoad

/-! ## Memory -/

/-- The three stores (44_load_store.md R184 to R186). -/
def IsStore (i : Instr) : Prop := ∃ rs rb off, i = .stb rs rb off ∨ i = .sth rs rb off ∨ i = .stw rs rb off

theorem isStore_of_mem {i : Instr} {n : Nat} {rs rb off : Byte}
    (h : (i, n) ∈ [(Instr.stb rs rb off, 1), (.sth rs rb off, 2), (.stw rs rb off, 4)]) : IsStore i := by
  simp only [List.mem_cons, Prod.mk.injEq, List.not_mem_nil, or_false] at h
  obtain ⟨hi, -⟩ | ⟨hi, -⟩ | ⟨hi, -⟩ := h
  · exact ⟨rs, rb, off, .inl hi⟩
  · exact ⟨rs, rb, off, .inr (.inl hi)⟩
  · exact ⟨rs, rb, off, .inr (.inr hi)⟩

theorem dataOk_iff_inData {s : State} {a : Word} : s.dataOk a = true ↔ InData s a := by
  simp [State.dataOk, InData]

/-- Store cells that pass their check are cells of the data region (20_memory.md R46, R55). -/
theorem bufferCells_in_data {s : State} {cs : List (Word × Byte)} (h : ∀ c ∈ cs, s.dataOk c.1 = true) :
    ∀ c ∈ bufferCells cs, s.codeSize ≤ c.1 ∧ c.1 < s.cfg.memSize := by
  intro c hc
  obtain ⟨d, hd, rfl⟩ := List.mem_map.mp hc
  exact dataOk_iff_inData.mp (h d hd)

/-- A handler changes memory by writing cells of the data region, and only a store writes any. -/
theorem Effect.mem_eq {i : Instr} {s u : State} (h : Effect i s u) :
    ∃ cells, u.mem = s.mem.writeAll cells ∧
      ∀ c ∈ cells, IsStore i ∧ s.codeSize ≤ c.1 ∧ c.1 < s.cfg.memSize := by
  have unchanged (hm : u.mem = s.mem) : ∃ cells, u.mem = s.mem.writeAll cells ∧
      ∀ c ∈ cells, IsStore i ∧ s.codeSize ≤ c.1 ∧ c.1 < s.cfg.memSize :=
    ⟨[], hm, fun _ hc => nomatch hc⟩
  cases h with
  | badStore a ea n v rs rb off hi =>
    refine ⟨_, rfl, fun c hc => ⟨isStore_of_mem hi, bufferCells_in_data (fun d hd => ?_) c hc⟩⟩
    exact List.mem_takeWhile_imp (p := fun d : Word × Byte => s.dataOk d.1) (mem_chosenBy hd)
  | stored ea n v rs rb off hi hok =>
    refine ⟨_, rfl, fun c hc => ⟨isStore_of_mem hi, bufferCells_in_data (fun d hd => ?_) c hc⟩⟩
    obtain ⟨j, hj, rfl⟩ := List.mem_map.mp hd
    exact hok j (List.mem_range.mp hj)
  | wrote => exact unchanged (State.setComputed_mem ..)
  | branched => exact unchanged (by rw [branchRel_eq])
  | linked => exact unchanged (by rw [linkBranch_eq])
  | returned => exact unchanged (by rw [returnBranch_eq])
  | badRegister | badKind | badLoad | compared | emitted | halted | movedToLr => exact unchanged rfl

theorem step_mem {s t : State} (h : step s = .next t) :
    ∃ cells, t.mem = s.mem.writeAll cells ∧
      ∀ c ∈ cells, (∃ i, Fetches s i ∧ IsStore i) ∧ s.codeSize ≤ c.1 ∧ c.1 < s.cfg.memSize := by
  obtain ⟨f, rfl⟩ | ⟨i, u, hi, hu, rfl⟩ := step_effect h
  · exact ⟨[], rfl, fun _ hc => nomatch hc⟩
  · obtain ⟨cells, hm, hc⟩ := hu.mem_eq
    refine ⟨cells, by rw [State.advance_mem, hm], fun c hmem => ?_⟩
    obtain ⟨hstore, hdata⟩ := hc c hmem
    exact ⟨⟨i, hi, hstore⟩, hdata⟩

/-- Every step keeps the standing facts. -/
theorem step_good {s t : State} (hg : Good s) (h : step s = .next t) : Good t := by
  obtain ⟨hwf, hsize, hcanon, hbound⟩ := hg
  obtain ⟨hcfg, hcode⟩ := step_sameLoad h
  obtain ⟨cells, hmem, hcells⟩ := step_mem h
  have hcodeSize : t.codeSize = s.codeSize := congrArg (4 * ·) hcode
  refine ⟨by rwa [hcfg], by rwa [hcodeSize, hcfg], hmem ▸ Memory.wf_writeAll hcanon cells, fun c hc => ?_⟩
  rw [hcfg]
  rw [hmem] at hc
  obtain hc | hc := Memory.mem_writeAll hc
  · exact (hcells c hc).2.2
  · exact hbound c hc

/-! ## The program counter -/

theorem format_imm24_of_branched {i : Instr} {taken : Bool} {off : BitVec 24} {f : Flags}
    (h : (i, taken) ∈ [(Instr.b off, true), (.beq off, Cond.eq.holds f), (.bne off, Cond.ne.holds f),
      (.bgt off, Cond.gt.holds f), (.blt off, Cond.lt.holds f), (.bge off, Cond.ge.holds f),
      (.ble off, Cond.le.holds f)]) : i.mnemonic.format = .imm24 := by
  simp only [List.mem_cons, Prod.mk.injEq, List.not_mem_nil, or_false] at h
  obtain ⟨rfl, -⟩ | ⟨rfl, -⟩ | ⟨rfl, -⟩ | ⟨rfl, -⟩ | ⟨rfl, -⟩ | ⟨rfl, -⟩ | ⟨rfl, -⟩ := h <;> rfl

theorem format_imm24_of_linked {i : Instr} {taken : Bool} {off : BitVec 24} {f : Flags}
    (h : (i, taken) ∈ [(Instr.bl off, true), (.beql off, Cond.eq.holds f), (.bnel off, Cond.ne.holds f),
      (.bgtl off, Cond.gt.holds f), (.bltl off, Cond.lt.holds f), (.bgel off, Cond.ge.holds f),
      (.blel off, Cond.le.holds f)]) : i.mnemonic.format = .imm24 := by
  simp only [List.mem_cons, Prod.mk.injEq, List.not_mem_nil, or_false] at h
  obtain ⟨rfl, -⟩ | ⟨rfl, -⟩ | ⟨rfl, -⟩ | ⟨rfl, -⟩ | ⟨rfl, -⟩ | ⟨rfl, -⟩ | ⟨rfl, -⟩ := h <;> rfl

theorem format_empty_of_returned {i : Instr} {taken : Bool} {f : Flags}
    (h : (i, taken) ∈ [(Instr.blr, true), (.beqlr, Cond.eq.holds f), (.bnelr, Cond.ne.holds f),
      (.bgtlr, Cond.gt.holds f), (.bltlr, Cond.lt.holds f), (.bgelr, Cond.ge.holds f),
      (.blelr, Cond.le.holds f)]) : i.mnemonic.format = .empty := by
  simp only [List.mem_cons, Prod.mk.injEq, List.not_mem_nil, or_false] at h
  obtain ⟨rfl, -⟩ | ⟨rfl, -⟩ | ⟨rfl, -⟩ | ⟨rfl, -⟩ | ⟨rfl, -⟩ | ⟨rfl, -⟩ | ⟨rfl, -⟩ := h <;> rfl

/-- Only the branches write `pc` before the increment (10_state.md R25). -/
theorem Effect.pc_of_not_branch {i : Instr} {s u : State} (h : Effect i s u) (himm : i.mnemonic.format ≠ .imm24)
    (hempty : i.mnemonic.format ≠ .empty) : u.pc = s.pc := by
  cases h with
  | branched taken off hi => exact absurd (format_imm24_of_branched hi) himm
  | linked taken off hi => exact absurd (format_imm24_of_linked hi) himm
  | returned taken hi => exact absurd (format_empty_of_returned hi) hempty
  | wrote => exact State.setComputed_pc ..
  | badRegister | badKind | badLoad | badStore | compared | emitted | halted | stored | movedToLr => rfl

/-! ## The run status -/

/-- A handler keeps the status, raises a fault, or is the `HALT` call (10_state.md R34). -/
theorem Effect.status_cases {i : Instr} {s u : State} (h : Effect i s u) :
    u.status = s.status ∨ (∃ f, u.status = .faulted f) ∨
      (u.status = .halted ∧ ∃ r, i = .syscall s.cfg.kinds.halt r) := by
  cases h with
  | badRegister | badKind | badLoad | badStore => exact .inr (.inl ⟨_, rfl⟩)
  | halted r hi => exact .inr (.inr ⟨rfl, r, hi⟩)
  | wrote => exact .inl (State.setComputed_status ..)
  | branched => exact .inl (by rw [branchRel_eq])
  | linked => exact .inl (by rw [linkBranch_eq])
  | returned => exact .inl (by rw [returnBranch_eq])
  | compared | emitted | stored | movedToLr => exact .inl rfl

theorem step_status_cases {s t : State} (h : step s = .next t) :
    t.status = .running ∨ (∃ f, t.status = .faulted f) ∨
      (t.status = .halted ∧ ∃ r, Fetches s (.syscall s.cfg.kinds.halt r)) := by
  have hs : s.status = .running := (step_next h).1
  obtain ⟨f, rfl⟩ | ⟨i, u, hi, hu, rfl⟩ := step_effect h
  · exact .inr (.inl ⟨f, rfl⟩)
  · rw [State.advance_status]
    obtain hst | hst | ⟨hst, r, rfl⟩ := hu.status_cases
    · exact .inl (hst.trans hs)
    · exact .inr (.inl hst)
    · exact .inr (.inr ⟨hst, r, hi⟩)

/-! ## The flags -/

/-- Only a compare changes the flags (10_state.md R28). -/
theorem Effect.flags_cases {i : Instr} {s u : State} (h : Effect i s u) :
    u.flags = s.flags ∨ ∃ ra rb imm, i ∈ [Instr.cmp ra rb, .fcmp ra rb, .cmpi ra imm] := by
  cases h with
  | compared f ra rb imm hi => exact .inr ⟨ra, rb, imm, hi⟩
  | wrote => exact .inl (State.setComputed_flags ..)
  | branched => exact .inl (by rw [branchRel_eq])
  | linked => exact .inl (by rw [linkBranch_eq])
  | returned => exact .inl (by rw [returnBranch_eq])
  | badRegister | badKind | badLoad | badStore | emitted | halted | stored | movedToLr => exact .inl rfl

theorem execCmpi_eq {ra : Byte} (ha : ra.toNat < 32) (imm : BitVec 16) (s : State) :
    execCmpi ra imm s = .next (s.setFlags (intFlags false (s.reg ⟨ra.toNat, ha⟩) (imm16 imm))) :=
  withReg_of_lt ha ..

/-- The flags a compare leaves do not depend on those before it (10_state.md R28). -/
theorem exec_compare_flags (s : State) (f : Flags) {ra rb : Byte} (imm : BitVec 16) (ha : ra.toNat < 32)
    (hb : rb.toNat < 32) {i : Instr} (hi : i ∈ [Instr.cmp ra rb, .fcmp ra rb, .cmpi ra imm]) :
    ∃ t u, exec i s = .next t ∧ exec i { s with flags := f } = .next u ∧ t.flags = u.flags := by
  simp only [List.mem_cons, List.not_mem_nil, or_false] at hi
  obtain rfl | rfl | rfl := hi
  · exact ⟨_, _, compareRegs_eq _ ha hb _, compareRegs_eq _ ha hb _, rfl⟩
  · exact ⟨_, _, compareRegs_eq _ ha hb _, compareRegs_eq _ ha hb _, rfl⟩
  · exact ⟨_, _, execCmpi_eq ha imm _, execCmpi_eq ha imm _, rfl⟩

/-! ## The link register -/

/-- The writers of `lr` and what they write (10_state.md R30; 43_branch.md R159, R176). -/
theorem Effect.lr_cases {i : Instr} {s u : State} (h : Effect i s u) :
    u.lr = s.lr ∨ (∃ rs r, i = .mtlr rs ∧ Names rs r ∧ u.lr = s.reg r) ∨
      (u.lr = s.pc ∧ ∃ off taken,
        (i, taken) ∈ [(Instr.bl off, true), (Instr.beql off, s.flags.eq), (Instr.bnel off, !s.flags.eq),
          (Instr.bgtl off, s.flags.gt), (Instr.bltl off, s.flags.lt), (Instr.bgel off, s.flags.gt || s.flags.eq),
          (Instr.blel off, s.flags.lt || s.flags.eq)] ∧
        (taken = true ∨ s.cfg.linkIfNotTaken = true)) := by
  cases h with
  | linked taken off hi =>
    by_cases hlink : taken = true ∨ s.cfg.linkIfNotTaken = true
    · exact .inr (.inr ⟨by simp [linkBranch_eq, hlink], off, taken, hi, hlink⟩)
    · exact .inl (by simp [linkBranch_eq, hlink])
  | movedToLr rs r hi hr => exact .inr (.inl ⟨rs, r, hi, hr, rfl⟩)
  | wrote => exact .inl (State.setComputed_lr ..)
  | branched => exact .inl (by rw [branchRel_eq])
  | returned => exact .inl (by rw [returnBranch_eq])
  | badRegister | badKind | badLoad | badStore | compared | emitted | halted | stored => exact .inl rfl

/-! ## The general registers -/

/-- A handler changes at most the register its destination byte names (10_state.md R22). -/
theorem Effect.reg_cases {i : Instr} {s u : State} (h : Effect i s u) (j : Fin 32) :
    u.reg j = s.reg j ∨ destByte s.cfg.kinds i = some (BitVec.ofNat 8 j) := by
  cases h with
  | wrote d c b hi hb =>
    by_cases hj : j = d
    · obtain rfl : b = BitVec.ofNat 8 j := by rw [hj, ← hb, BitVec.ofNat_toNat, BitVec.setWidth_eq]
      exact .inr hi
    · exact .inl (State.setComputed_reg_ne s c hj)
  | branched => exact .inl (by rw [branchRel_eq]; rfl)
  | linked => exact .inl (by rw [linkBranch_eq]; rfl)
  | returned => exact .inl (by rw [returnBranch_eq]; rfl)
  | badRegister | badKind | badLoad | badStore | compared | emitted | halted | stored | movedToLr => exact .inl rfl

/-- The `SYSK` byte of a syscall kind (30_encoding.md R84). -/
def SysKind.byte (k : SysKinds) : SysKind → Byte
  | .print => k.print
  | .iprint => k.iprint
  | .fprint => k.fprint
  | .qmb => k.qmb
  | .halt => k.halt

theorem eq_byte_of_kindOf {k : SysKinds} {b : Byte} {x : SysKind} (h : kindOf k b = some x) : b = x.byte k := by
  unfold kindOf at h
  repeat' split at h
  all_goals cases h
  all_goals assumption

/-- The instructions of R22's list with a destination byte `b`, all but `SETI`, whose other operand is no byte. -/
def regWriters (b ra rb : Byte) : List Instr :=
  [.add b ra rb, .sub b ra rb, .mul b ra rb, .and b ra rb, .or b ra rb, .xor b ra rb, .addi b ra rb, .subi b ra rb,
    .muli b ra rb, .andi b ra rb, .ori b ra rb, .xori b ra rb, .not b ra, .shl b ra rb, .shr b ra rb, .fadd b ra rb,
    .fsub b ra rb, .fmul b ra rb, .fdiv b ra rb, .mflr b, .ldb b ra rb, .ldh b ra rb, .ldw b ra rb]

/-- The instructions that have a destination byte (10_state.md R22; for `QMB`, 45_syscall.md R194). -/
theorem writer_of_destByte {k : SysKinds} {i : Instr} {b : Byte} (h : destByte k i = some b) :
    (∃ ra rb, i ∈ regWriters b ra rb) ∨ (∃ imm, i = .seti b imm) ∨ i = .syscall k.qmb b := by
  cases i with
  | add rd x y | sub rd x y | mul rd x y | and rd x y | or rd x y | xor rd x y | addi rd x y | subi rd x y | muli rd x y
  | andi rd x y | ori rd x y | xori rd x y | shl rd x y | shr rd x y | fadd rd x y | fsub rd x y | fmul rd x y
  | fdiv rd x y | ldb rd x y | ldh rd x y | ldw rd x y =>
    cases h
    exact .inl ⟨x, y, by simp [regWriters]⟩
  | not rd x =>
    cases h
    exact .inl ⟨x, 0#8, by simp [regWriters]⟩
  | mflr rd =>
    cases h
    exact .inl ⟨0#8, 0#8, by simp [regWriters]⟩
  | seti rd imm =>
    cases h
    exact .inr (.inl ⟨imm, rfl⟩)
  | syscall kind r =>
    obtain ⟨hk, rfl⟩ : kindOf k kind = some .qmb ∧ r = b := by simpa [destByte] using h
    exact .inr (.inr (by rw [eq_byte_of_kindOf hk]; rfl))
  | cmp | fcmp | cmpi | mtlr | stb | sth | stw => cases h
  | b | beq | bne | bgt | blt | bge | ble | bl | beql | bnel | bgtl | bltl | bgel | blel => cases h
  | blr | beqlr | bnelr | bgtlr | bltlr | bgelr | blelr => cases h

/-! ## The output history -/

/-- A handler appends at most one event, and only a printing call appends one (10_state.md R41, 45_syscall.md R196). -/
theorem Effect.out_cases {i : Instr} {s u : State} (h : Effect i s u) :
    u.out = s.out ∨ ∃ e kind r, u.out = s.out ++ [e] ∧ i = .syscall kind r ∧
      kind ∈ [s.cfg.kinds.print, s.cfg.kinds.iprint, s.cfg.kinds.fprint] := by
  cases h with
  | emitted e x k r hi hk hx =>
    refine .inr ⟨e, k, r, rfl, hi, ?_⟩
    rw [eq_byte_of_kindOf hk]
    obtain rfl | rfl | rfl := hx <;> simp [SysKind.byte]
  | wrote => exact .inl (State.setComputed_out ..)
  | branched => exact .inl (by rw [branchRel_eq])
  | linked => exact .inl (by rw [linkBranch_eq])
  | returned => exact .inl (by rw [returnBranch_eq])
  | badRegister | badKind | badLoad | badStore | compared | halted | stored | movedToLr => exact .inl rfl

/-! ## Runs -/

theorem runSteps_of_not_running {s : State} (hs : s.status ≠ .running) (k : Nat) : runSteps k s = s := by
  cases k with
  | zero => rfl
  | succ k => simp [runSteps, step_of_not_running hs]

theorem runSteps_succ_of_next {s t : State} (h : step s = .next t) (k : Nat) : runSteps (k + 1) s = runSteps k t := by
  simp [runSteps, h]

theorem runSteps_add (k j : Nat) (s : State) : runSteps (k + j) s = runSteps j (runSteps k s) := by
  induction k generalizing s with
  | zero => rw [Nat.zero_add]; rfl
  | succ k ih =>
    by_cases hs : s.status = .running
    · obtain ⟨t, ht⟩ := step_total hs
      rw [Nat.add_right_comm, runSteps_succ_of_next ht, runSteps_succ_of_next ht, ih]
    · simp [runSteps_of_not_running hs]

theorem good_runSteps {s : State} (hg : Good s) (k : Nat) : Good (runSteps k s) := by
  induction k generalizing s with
  | zero => exact hg
  | succ k ih =>
    by_cases hs : s.status = .running
    · obtain ⟨t, ht⟩ := step_total hs
      rw [runSteps_succ_of_next ht]
      exact ih (step_good hg ht)
    · rwa [runSteps_of_not_running hs]

/-! ## The canonical form of memory -/

/-- A canonical buffer lists exactly the cells it reads that differ from an unlisted one. -/
theorem Memory.mem_iff_read {m : Memory} (h : m.wf) (c : Host.Cell) :
    c ∈ m ↔ m.read c.1 = c.2 ∧ c.2 ≠ Memory.unlistedByte := by
  obtain ⟨hsorted, hlisted⟩ := h
  induction m with
  | nil => simp [Memory.read, eq_comm]
  | cons d m ih =>
    rw [List.map_cons, List.pairwise_cons] at hsorted
    have hm := ih hsorted.2 fun e he => hlisted e (List.mem_cons_of_mem d he)
    have hd : d.2 ≠ Memory.unlistedByte := hlisted d List.mem_cons_self
    by_cases heq : d.1 = c.1
    · have hnot : c ∉ m := fun hc => Nat.ne_of_lt (hsorted.1 c.1 (List.mem_map_of_mem hc)) heq
      simp only [List.mem_cons, hnot, or_false, Memory.read, heq, if_true]
      constructor
      · rintro rfl
        exact ⟨rfl, hd⟩
      · rintro ⟨hread, -⟩
        exact Prod.ext heq.symm hread.symm
    · have hne : c ≠ d := fun hc => heq (by rw [hc])
      simpa only [List.mem_cons, hne, false_or, Memory.read, heq, if_false] using hm

theorem Memory.eq_of_read_eq {m n : Memory} (hm : m.wf) (hn : n.wf) (h : ∀ a, m.read a = n.read a) : m = n := by
  have hmem (c : Host.Cell) : c ∈ m ↔ c ∈ n := by
    rw [Memory.mem_iff_read hm, Memory.mem_iff_read hn, h]
  have nodup {l : Memory} (hl : l.wf) : l.Nodup := .of_map Prod.fst (hl.1.imp Nat.ne_of_lt)
  have hperm : m.Perm n := (List.perm_ext_iff_of_nodup (nodup hm) (nodup hn)).mpr hmem
  refine hperm.eq_of_pairwise (le := fun c d => c.1 < d.1) ?_ (List.pairwise_map.mp hm.1) (List.pairwise_map.mp hn.1)
  intro c d _ _ hcd hdc
  exact absurd hcd (Nat.lt_asymm hdc)

/-! ## The load -/

/-- The state a load that is not refused gives (70_reset_and_hazards.md R231). -/
def launchState (c : Config) (l : Launch) (image : List Byte) : State where
  cfg := c
  gpr := l.gpr.set 0 c.r0Init
  pc := 0#32
  lr := l.lr
  flags := l.flags
  status := .running
  mem := (Memory.writeAll [] (dataCells c image.length)).writeAll (cellsFrom 0 image)
  codeWords := image.length / 4
  out := []
  draws := 0

theorem loadImage_eq (c : Config) (l : Launch) (image : List Byte) :
    loadImage c l image =
      if image.length % 4 = 0 ∧ image.length ≤ c.memSize then some (launchState c l image) else none := rfl

section Launch

variable {c : Config} {l : Launch} {image : List Byte}

theorem mem_dataCells {n : Nat} {cell : Host.Cell} :
    cell ∈ dataCells c n ↔ cell ∈ c.initData ∧ n ≤ cell.1 ∧ cell.1 < c.memSize := by
  simp [dataCells]

theorem launchState_codeSize (h : image.length % 4 = 0) :
    (launchState c l image).codeSize = image.length :=
  Nat.mul_div_cancel' (Nat.dvd_of_mod_eq_zero h)

theorem launchState_reg_zero : (launchState c l image).reg 0 = c.r0Init := by
  simp [State.reg, launchState]

theorem launchState_reg_ne {j : Fin 32} (h : j ≠ 0) : (launchState c l image).reg j = l.gpr[j.val] :=
  Vector.getElem_set_ne (xs := l.gpr) (i := 0) (by omega) j.isLt fun h0 => h (Fin.ext h0.symm)

theorem launchState_read_code {a : Nat} (h : a < image.length) : (launchState c l image).mem.read a = image[a] := by
  simpa [launchState] using read_cellsFrom (Memory.writeAll [] (dataCells c image.length)) 0 image h

/-- Beyond the image, the loaded buffer holds the initial data alone. -/
theorem launchState_read_data {a : Nat} (h : image.length ≤ a) :
    (launchState c l image).mem.read a = (Memory.writeAll [] (dataCells c image.length)).read a := by
  refine Memory.read_writeAll_of_not_mem _ _ _ fun cell hcell => ?_
  have := cellsFrom_addr hcell
  omega

theorem launchState_read_initData (hn : (c.initData.map Prod.fst).Nodup) {cell : Host.Cell} (hc : cell ∈ c.initData)
    (hlow : image.length ≤ cell.1) (hhigh : cell.1 < c.memSize) :
    (launchState c l image).mem.read cell.1 = cell.2 := by
  rw [launchState_read_data hlow]
  exact Memory.read_writeAll_of_mem [] _ (hn.sublist (List.filter_sublist.map _)) (mem_dataCells.mpr ⟨hc, hlow, hhigh⟩)

theorem launchState_read_unlisted {a : Nat} (h : image.length ≤ a) (hc : ∀ cell ∈ c.initData, cell.1 ≠ a) :
    (launchState c l image).mem.read a = 0#8 := by
  rw [launchState_read_data h]
  exact Memory.read_writeAll_of_not_mem [] _ a fun cell hcell => hc cell (mem_dataCells.mp hcell).1

/-- The launch state meets the standing facts (70_reset_and_hazards.md R230). -/
theorem launchState_good (hwf : c.wf) (hwords : image.length % 4 = 0) (hfits : image.length ≤ c.memSize) :
    Good (launchState c l image) := by
  refine ⟨hwf, by rwa [launchState_codeSize hwords], Memory.wf_writeAll (Memory.wf_writeAll Memory.wf_nil _) _,
    fun cell hcell => ?_⟩
  obtain hcode | hdata := Memory.mem_writeAll hcell
  · have := cellsFrom_addr hcode
    exact Nat.lt_of_lt_of_le (by omega) hfits
  · obtain hinit | hnil := Memory.mem_writeAll hdata
    · exact (mem_dataCells.mp hinit).2.2
    · cases hnil

end Launch

theorem launchState_reset : launchState referenceConfig referenceLaunch [] = State.reset := rfl

end Sys2Proof.Machine

/-! The obligations of 10_state.md, each read off the laws above. -/

namespace Sys2Proof.Proofs

open Sys2Proof.Machine Sys2Proof.Safety

/-- Settles O43: the buffer after a step is the old one with cells of the data region written. -/
theorem stepKeepsGood : Obligations.StepKeepsGood :=
  fun _ _ => step_good

/-- Settles O9: every handler answers, and `step` answers a next state in a running state alone. -/
theorem stepsExactlyWhileRunning : Obligations.StepsExactlyWhileRunning :=
  fun _ => ⟨fun ⟨_, ht⟩ => (step_next ht).1, step_total⟩

/-- Settles O10: only branches write `pc` in their handler. -/
theorem nonBranchAdvancesByOne : Obligations.NonBranchAdvancesByOne := by
  intro s t i hi himm hempty h hok
  obtain ⟨u, hu, rfl⟩ := step_effect_of_fetches hi h
  rw [State.advance_status] at hok
  rw [State.advance_pc, hok, hu.pc_of_not_branch himm hempty]
  rfl

/-- Settles O46, by the statuses a step can end in. -/
theorem haltedOnlyByHaltCall : Obligations.HaltedOnlyByHaltCall := by
  intro s t h
  obtain hst | ⟨f, hst⟩ | ⟨hst, hcall⟩ := step_status_cases h
  · simp [hst, (step_next h).1]
  · simp [hst, (step_next h).1]
  · simp [hst, hcall, (step_next h).1]

/-- Settles O47: a compare is the only effect that writes the flags, from registers and the configuration alone. -/
theorem flagsWrittenOnlyByCompares : Obligations.FlagsWrittenOnlyByCompares := by
  refine ⟨fun s t h hne => ?_, fun s f ra rb imm a b ha hb i hi =>
    exec_compare_flags s f imm (ha ▸ a.isLt) (hb ▸ b.isLt) hi⟩
  obtain ⟨f, rfl⟩ | ⟨i, u, hi, hu, rfl⟩ := step_effect h
  · exact absurd rfl hne
  · rw [State.advance_flags] at hne
    obtain ⟨ra, rb, imm, hmem⟩ := hu.flags_cases.resolve_left hne
    simp only [List.mem_cons, List.not_mem_nil, or_false] at hmem
    obtain rfl | rfl | rfl := hmem
    · exact ⟨ra, rb, imm, .inl hi⟩
    · exact ⟨ra, rb, imm, .inr (.inl hi)⟩
    · exact ⟨ra, rb, imm, .inr (.inr hi)⟩

/-- Settles O48, by the two effects that write `lr`. -/
theorem linkRegisterWriters : Obligations.LinkRegisterWriters := by
  intro s t i hi h hne
  obtain ⟨u, hu, rfl⟩ := step_effect_of_fetches hi h
  rw [State.advance_lr] at hne ⊢
  exact hu.lr_cases.resolve_left hne

/-- Settles O49: the one effect that writes a register writes the one its destination byte names. -/
theorem registerWriters : Obligations.RegisterWriters := by
  intro s t i j hi h hne
  obtain ⟨u, hu, rfl⟩ := step_effect_of_fetches hi h
  rw [State.advance_reg] at hne
  exact writer_of_destByte ((hu.reg_cases j).resolve_left hne)

/-- Settles O50: a byte that reads differently is one of the cells the step wrote. -/
theorem memoryWrittenOnlyByStores : Obligations.MemoryWrittenOnlyByStores := by
  intro s t a h hne
  obtain ⟨cells, hmem, hcells⟩ := step_mem h
  obtain ⟨c, hc, rfl⟩ : ∃ c ∈ cells, c.1 = a := by
    by_contra hnone
    push Not at hnone
    exact hne (by rw [hmem, Memory.read_writeAll_of_not_mem _ _ _ hnone])
  obtain ⟨⟨i, hi, rs, rb, off, hstore⟩, hlow, hhigh⟩ := hcells c hc
  refine ⟨hlow, hhigh, rs, rb, off, ?_⟩
  obtain rfl | rfl | rfl := hstore
  · exact .inl hi
  · exact .inr (.inl hi)
  · exact .inr (.inr hi)

/-- Settles O51, by the one effect that emits. -/
theorem outputOnlyGrows : Obligations.OutputOnlyGrows := by
  intro s t h
  obtain ⟨f, rfl⟩ | ⟨i, u, hi, hu, rfl⟩ := step_effect h
  · exact .inl rfl
  · rw [State.advance_out]
    obtain hout | ⟨e, kind, r, hout, rfl, hkind⟩ := hu.out_cases
    · exact .inl hout
    · exact .inr ⟨e, kind, r, hout, hi, hkind⟩

/-- Settles O52, by induction on the number of steps. -/
theorem runsKeepGoodAndStopWhenEnded : Obligations.RunsKeepGoodAndStopWhenEnded :=
  fun k s => ⟨fun hs => runSteps_of_not_running hs k, fun hg => good_runSteps hg k, fun j => runSteps_add k j s⟩

/-- Settles O53: canonical buffers that read the same list the same cells, in rising order. -/
theorem canonicalMemoriesAreEqual : Obligations.CanonicalMemoriesAreEqual :=
  fun _ _ => Memory.eq_of_read_eq

/-- Settles O54, by the laws of the launch state. -/
theorem loadGivesLaunchState : Obligations.LoadGivesLaunchState := by
  refine fun c l image hn => ⟨fun hbad => ?_, fun hwords hfits => ⟨launchState c l image, ?_⟩⟩
  · rw [loadImage_eq, if_neg (by omega)]
  · have hsize : (launchState c l image).codeSize = image.length := launchState_codeSize hwords
    exact ⟨by rw [loadImage_eq, if_pos ⟨hwords, hfits⟩], rfl, rfl, rfl, rfl, hsize, hsize,
      launchState_reg_zero, fun _ => launchState_reg_ne, rfl, rfl, fun _ => launchState_read_code,
      fun _ => launchState_read_initData hn, fun _ => launchState_read_unlisted,
      fun hwf => launchState_good hwf hwords hfits⟩

/-- Settles O44: the reset state is a launch state. -/
theorem resetIsGood : Obligations.ResetIsGood := by
  unfold Obligations.ResetIsGood
  rw [← launchState_reset]
  exact launchState_good (by decide) rfl (Nat.zero_le _)

/-- Settles O56: the reset state is the launch state of the empty program. -/
theorem resetValues : Obligations.ResetValues := by
  refine ⟨rfl, rfl, rfl, rfl, launchState_reg_zero (l := referenceLaunch) (image := []), fun _ _ _ => ⟨rfl, rfl⟩, ?_⟩
  exact (loadImage_eq referenceConfig referenceLaunch []).trans (if_pos ⟨rfl, Nat.zero_le _⟩)

end Sys2Proof.Proofs
end

-- Proofs of the rules of 20_memory.md: fetches, bounds faults of loads and stores, and reads of stored words.
section
/-! PROOFS. What a data access reads after a write, where it faults, and that no step changes what a fetch reads. -/

namespace Sys2Proof.Machine

open Sys2Proof.Safety

/-! ## Register checks and raised faults -/

theorem withReg_of_names {b : Byte} {i : Fin 32} (h : Names b i) (s : State) (k : Fin 32 → Result) :
    withReg b s k = k i := by
  have hb : b.toNat < 32 := h ▸ i.isLt
  rw [withReg_of_lt hb, (Fin.ext h : (⟨b.toNat, hb⟩ : Fin 32) = i)]

theorem raised_faultsWith (f : ExecFault) (s : State) : FaultsWith f s (State.raised f s) :=
  ⟨rfl, fun _ => rfl, rfl, rfl, rfl, rfl, rfl, rfl⟩

/-- A partial store changes memory and the draw count alone, so the fault raised after it is that of `s`. -/
theorem partialStore_raised_faultsWith (f : ExecFault) (s : State) (cells : List (Word × Byte)) :
    FaultsWith f s (State.raised f (s.partialStore cells)) :=
  ⟨rfl, fun _ => rfl, rfl, rfl, rfl, rfl, rfl, rfl⟩

theorem dataOk_eq_false_iff {s : State} {a : Word} : s.dataOk a = false ↔ ¬ InData s a := by
  rw [← dataOk_iff_inData, Bool.not_eq_true]

/-! ## Fetch -/

/-- A fetch reads the configuration, the program length, `pc` and the code region, and nothing else (20_memory.md R52):
the four bytes of a word that starts in the code region all lie in it, since `codeSize` is a multiple of four. -/
theorem fetchWord_congr {s t : State} (hload : SameLoad s t) (hpc : t.pc = s.pc)
    (hcode : ∀ a < s.codeSize, t.mem.read a = s.mem.read a) : fetchWord t = fetchWord s := by
  obtain ⟨hcfg, hwords⟩ := hload
  have hsize : t.codeSize = s.codeSize := congrArg (4 * ·) hwords
  rw [fetchWord_eq, fetchWord_eq, hcfg, hsize, hpc]
  by_cases hout : s.codeSize ≤ 4 * s.pc.toNat ∨ s.cfg.memSize ≤ 4 * s.pc.toNat
  · rw [if_pos hout, if_pos hout]
  · have hin (i : Nat) (hi : i < 4) : t.mem.read (4 * s.pc.toNat + i) = s.mem.read (4 * s.pc.toNat + i) :=
      hcode _ (by unfold State.codeSize at hout ⊢; omega)
    rw [if_neg hout, if_neg hout, Memory.readWord, Memory.readWord, hin 1 (by decide), hin 2 (by decide),
      hin 3 (by decide)]
    exact congrArg (fun b => Except.ok (wordOfBytes b _ _ _)) (hin 0 (by decide))

/-- No step changes a byte of the code region (20_memory.md R48, R66). -/
theorem step_read_code {s t : State} (h : step s = .next t) {a : Nat} (ha : a < s.codeSize) :
    t.mem.read a = s.mem.read a := by
  obtain ⟨cells, hmem, hcells⟩ := step_mem h
  rw [hmem]
  exact Memory.read_writeAll_of_not_mem _ _ _ fun c hc => by
    have := (hcells c hc).2.1
    omega

/-! ## The bytes of a store -/

/-- The bytes of an access have different addresses, wrapping included (20_memory.md R54). -/
theorem byteAddr_inj {ea : Word} {i j : Nat} (hi : i < 2 ^ 32) (hj : j < 2 ^ 32)
    (h : (ea + BitVec.ofNat 32 i).toNat = (ea + BitVec.ofNat 32 j).toNat) : i = j := by
  have hofNat : BitVec.ofNat 32 i = BitVec.ofNat 32 j := (BitVec.add_right_inj ea).mp (BitVec.eq_of_toNat_eq h)
  have hmod := congrArg BitVec.toNat hofNat
  rwa [BitVec.toNat_ofNat, BitVec.toNat_ofNat, Nat.mod_eq_of_lt hi, Nat.mod_eq_of_lt hj] at hmod

theorem mem_bufferCells_storeCells {ea v : Word} {n : Nat} {c : Host.Cell} :
    c ∈ bufferCells (storeCells ea n v) ↔ ∃ i < n, c = ((ea + BitVec.ofNat 32 i).toNat, storeByte v n i) := by
  simp [bufferCells, storeCells, eq_comm]

theorem nodup_storeAddrs (ea v : Word) {n : Nat} (hn : n ≤ 2 ^ 32) :
    ((bufferCells (storeCells ea n v)).map Prod.fst).Nodup := by
  rw [bufferCells, storeCells, List.map_map, List.map_map]
  refine List.Nodup.map_on (fun i hi j hj h => ?_) List.nodup_range
  rw [List.mem_range] at hi hj
  exact byteAddr_inj (by omega) (by omega) h

/-- A completed write leaves at each of its addresses the byte it stores there (20_memory.md R56). -/
theorem read_storeCells (m : Memory) (ea v : Word) {n i : Nat} (hn : n ≤ 2 ^ 32) (hi : i < n) :
    (m.writeAll (bufferCells (storeCells ea n v))).read (ea + BitVec.ofNat 32 i).toNat = storeByte v n i :=
  Memory.read_writeAll_of_mem m _ (nodup_storeAddrs ea v hn) (mem_bufferCells_storeCells.mpr ⟨i, hi, rfl⟩)

/-- After a faulting store, each of its bytes is old or the byte it would have stored (20_memory.md R58). -/
theorem partialStore_read_or (s : State) (ea v : Word) {n j : Nat} (hn : n ≤ 2 ^ 32) (hj : j < n) :
    (s.partialStore (storeCells ea n v)).mem.read (ea + BitVec.ofNat 32 j).toNat =
        s.mem.read (ea + BitVec.ofNat 32 j).toNat ∨
      (s.partialStore (storeCells ea n v)).mem.read (ea + BitVec.ofNat 32 j).toNat = storeByte v n j := by
  refine Memory.read_writeAll_or _ _ _ _ fun c hc haddr => ?_
  obtain ⟨d, hd, rfl⟩ := List.mem_map.mp hc
  obtain ⟨k, hk, rfl, -⟩ := mem_takeWhile_storeCells (mem_chosenBy hd)
  obtain rfl : k = j := byteAddr_inj (by omega) (by omega) haddr
  rfl

/-- A store that faults at byte `i` changes no byte but those before it (20_memory.md R58). -/
theorem partialStore_read_of_ne {s : State} {ea : Word} {n i : Nat} (v : Word) {a : Nat}
    (hbad : s.dataOk (ea + BitVec.ofNat 32 i) = false) (ha : ∀ j < i, a ≠ (ea + BitVec.ofNat 32 j).toNat) :
    (s.partialStore (storeCells ea n v)).mem.read a = s.mem.read a := by
  refine partialStore_frame s _ a fun c hc => ?_
  obtain ⟨j, -, rfl, hpassed⟩ := mem_takeWhile_storeCells hc
  have hlt : j < i := by
    by_contra hge
    rw [hpassed i (Nat.not_lt.mp hge)] at hbad
    cases hbad
  exact (ha j hlt).symm

/-! ## The value of the bytes of a store -/

theorem bigEndian_concat (bs : List Byte) (b : Byte) : bigEndian (bs ++ [b]) = bigEndian bs * 256 + b.toNat := by
  simp [bigEndian]

/-- The `n` base-256 digits above digit `e` and that digit are `n + 1` digits. -/
theorem digits_append_digit (x e n : Nat) :
    x / 256 ^ (e + 1) % 256 ^ n * 256 + x / 256 ^ e % 256 = x / 256 ^ e % 256 ^ (n + 1) := by
  rw [pow_succ, ← Nat.div_div_eq_div_mul, pow_succ' 256 n, Nat.mod_mul, Nat.mul_comm, Nat.add_comm]

/-- Successive bytes of a store are successive base-256 digits of its value, read together as the number they write out
(20_memory.md R50, R56). -/
theorem bigEndian_storeBytes (v : Word) {m k n : Nat} (h : k + n ≤ m) :
    bigEndian ((List.range n).map fun i => storeByte v m (k + i)) = v.toNat / 256 ^ (m - k - n) % 256 ^ n := by
  induction n with
  | zero => simp [bigEndian, Nat.mod_one]
  | succ n ih =>
    have hdigit : m - 1 - (k + n) = m - k - (n + 1) := by omega
    have hnext : m - k - n = m - k - (n + 1) + 1 := by omega
    rw [List.range_succ, List.map_append, List.map_singleton, bigEndian_concat, ih (by omega), storeByte_eq,
      BitVec.toNat_ofNat, hdigit, hnext]
    exact digits_append_digit v.toNat _ n

/-- A read inside the bytes of a completed write of `m` bytes gives that part of the value (20_memory.md R60). -/
theorem memRead_of_stored {t : State} {ea v : Word} {m k n : Nat} (h : k + n ≤ m)
    (hok : ∀ i < m, t.dataOk (ea + BitVec.ofNat 32 i) = true)
    (hread : ∀ i < m, t.mem.read (ea + BitVec.ofNat 32 i).toNat = storeByte v m i) :
    memRead t (ea + BitVec.ofNat 32 k) n = .ok (v.extractLsb' (8 * (m - k - n)) (8 * n)) := by
  have haddr (i : Nat) : ea + BitVec.ofNat 32 k + BitVec.ofNat 32 i = ea + BitVec.ofNat 32 (k + i) := by
    rw [BitVec.add_assoc, BitVec.ofNat_add]
  have hbytes : (byteAddrs (ea + BitVec.ofNat 32 k) n).map (fun a => t.mem.read a.toNat) =
      (List.range n).map fun i => storeByte v m (k + i) := by
    rw [byteAddrs, List.map_map]
    refine List.map_congr_left fun i hi => ?_
    rw [List.mem_range] at hi
    rw [Function.comp_apply, haddr, hread _ (by omega)]
  rw [memRead_ok fun i hi => by rw [haddr]; exact hok _ (by omega), hbytes, bigEndian_storeBytes v h]
  congr 1
  apply BitVec.eq_of_toNat_eq
  simp [Nat.shiftRight_eq_div_pow, Nat.pow_mul]

/-! ## Loads and stores as accesses -/

theorem exec_load {rd rb off : Byte} {p : Instr × Nat}
    (hp : p ∈ [(Instr.ldb rd rb off, 1), (.ldh rd rb off, 2), (.ldw rd rb off, 4)]) (s : State) :
    ∃ ext, exec p.1 s = loadBytes p.2 ext rd rb off s := by
  simp only [List.mem_cons, List.not_mem_nil, or_false] at hp
  obtain rfl | rfl | rfl := hp
  · exact ⟨_, rfl⟩
  · exact ⟨_, rfl⟩
  · exact ⟨_, rfl⟩

/-- A store is `storeBytes` at its width, which is small enough that its addresses do not meet themselves by wrapping. -/
theorem exec_store {rs rb off : Byte} {p : Instr × Nat}
    (hp : p ∈ [(Instr.stb rs rb off, 1), (.sth rs rb off, 2), (.stw rs rb off, 4)]) (s : State) :
    exec p.1 s = storeBytes p.2 rs rb off s ∧ p.2 ≤ 2 ^ 32 := by
  simp only [List.mem_cons, List.not_mem_nil, or_false] at hp
  obtain rfl | rfl | rfl := hp
  · exact ⟨rfl, Nat.le_of_ble_eq_true rfl⟩
  · exact ⟨rfl, Nat.le_of_ble_eq_true rfl⟩
  · exact ⟨rfl, Nat.le_of_ble_eq_true rfl⟩

section Load

variable {n : Nat} {rd rb off : Byte} {d b : Fin 32} {s : State} (hd : Names rd d) (hb : Names rb b)

include hd hb

theorem loadBytes_of_ok {v : BitVec (8 * n)} (ext : BitVec (8 * n) → Word)
    (h : memRead s (effAddr s b off) n = .ok v) : loadBytes n ext rd rb off s = .next (s.setReg d (ext v)) := by
  rw [loadBytes, withReg_of_names hd, withReg_of_names hb, h]

theorem loadBytes_of_error {f : ExecFault} (ext : BitVec (8 * n) → Word)
    (h : memRead s (effAddr s b off) n = .error f) : loadBytes n ext rd rb off s = .next (State.raised f s) := by
  rw [loadBytes, withReg_of_names hd, withReg_of_names hb, h]
  rfl

end Load

theorem storeBytes_of_names {rs rb : Byte} {r b : Fin 32} (hr : Names rs r) (hb : Names rb b) (n : Nat) (off : Byte)
    (s : State) : storeBytes n rs rb off s = memWrite (effAddr s b off) n (s.reg r) s := by
  rw [storeBytes, withReg_of_names hr, withReg_of_names hb]

/-- A write that raises no fault passed every check and changed nothing but memory (20_memory.md R56). -/
theorem memWrite_of_noFault {ea v : Word} {n : Nat} {s t : State} (h : memWrite ea n v s = .next t) (hok : NoFault t) :
    (∀ i < n, s.dataOk (ea + BitVec.ofNat 32 i) = true) ∧
      t = { s with mem := s.mem.writeAll (bufferCells (storeCells ea n v)) } := by
  obtain hdone | ⟨a, -, -, rfl⟩ := memWrite_next h
  · exact hdone
  · cases hok

/-- A read inside the bytes of a write that raised no fault gives that part of the value (20_memory.md R60, R64). -/
theorem memRead_of_memWrite {ea v : Word} {m k n : Nat} {s t : State} (hm : m ≤ 2 ^ 32) (h : k + n ≤ m)
    (hw : memWrite ea m v s = .next t) (hok : NoFault t) :
    memRead t (ea + BitVec.ofNat 32 k) n = .ok (v.extractLsb' (8 * (m - k - n)) (8 * n)) := by
  obtain ⟨hdata, rfl⟩ := memWrite_of_noFault hw hok
  exact memRead_of_stored h hdata fun i hi => read_storeCells s.mem ea v hm hi

/-- A word write is read back whole. -/
theorem memRead_word_of_memWrite {ea v : Word} {s t : State} (hw : memWrite ea 4 v s = .next t) (hok : NoFault t) :
    memRead t ea 4 = .ok v := by
  have h := memRead_of_memWrite (k := 0) (n := 4) (by decide) (by decide) hw hok
  rw [BitVec.add_zero] at h
  exact h.trans (congrArg Except.ok (extract_all v))

@[simp] theorem memRead_advance (s : State) (ea : Word) (n : Nat) : memRead s.advance ea n = memRead s ea n := by
  unfold State.advance
  split <;> rfl

@[simp] theorem effAddr_advance (s : State) (b : Fin 32) (off : Byte) : effAddr s.advance b off = effAddr s b off := by
  rw [effAddr, State.advance_reg, effAddr]

/-- A step of a fetched instruction is its handler and then the increment. -/
theorem step_of_fetches {s : State} {i : Instr} (hs : s.status = .running) (hi : Fetches s i) :
    step s = advanceResult (exec i s) := by
  obtain ⟨w, hw, hd⟩ := hi
  exact step_of_decoded hs hw hd

end Sys2Proof.Machine

/-! The obligations of 20_memory.md, each read off the laws above. -/

namespace Sys2Proof.Proofs

open Sys2Proof.Machine Sys2Proof.Safety

/-- Settles O45: the cells a step writes lie above the code region, and a fetch reads nothing else of memory. -/
theorem codeIsImmutable : Obligations.CodeIsImmutable := by
  intro s t h
  obtain ⟨hcfg, hwords⟩ := step_sameLoad h
  have hcode : ∀ a < s.codeSize, t.mem.read a = s.mem.read a := fun _ ha => step_read_code h ha
  exact ⟨hcfg, hwords, hcode, fun p => fetchWord_congr (s := { s with pc := p }) ⟨hcfg, hwords⟩ rfl hcode⟩

/-- Settles O31: the read of a load reports its first failing byte, and the handler raises that fault in `s` itself. -/
theorem loadFaultsAtFirstBadByte : Obligations.LoadFaultsAtFirstBadByte := by
  intro s rd rb off d b hd hb p hp i hi hbad hbefore
  obtain ⟨ext, hexec⟩ := exec_load hp s
  have hbad' : s.dataOk (effAddr s b off + BitVec.ofNat 32 i) = false := dataOk_eq_false_iff.mpr hbad
  have hread := memRead_bad hi hbad' fun j hj => dataOk_iff_inData.mpr (hbefore j hj)
  exact ⟨_, hexec.trans (loadBytes_of_error hd hb ext hread), fun _ => rfl, raised_faultsWith _ s⟩

/-- Settles O33, by what a partial store may have written. -/
theorem storeFaultsAtFirstBadByte : Obligations.StoreFaultsAtFirstBadByte := by
  intro s rs rb off r b hr hb p hp i hi hbad hbefore
  obtain ⟨hexec, hwidth⟩ := exec_store hp s
  have hbad' : s.dataOk (effAddr s b off + BitVec.ofNat 32 i) = false := dataOk_eq_false_iff.mpr hbad
  have hwrite := memWrite_bad (s.reg r) hi hbad' fun j hj => dataOk_iff_inData.mpr (hbefore j hj)
  refine ⟨_, (hexec.trans (storeBytes_of_names hr hb p.2 off s)).trans hwrite, partialStore_raised_faultsWith _ s _,
    fun j hj => ?_, fun a => partialStore_read_of_ne (s.reg r) hbad'⟩
  rw [← storeByte_eq]
  exact partialStore_read_or s _ (s.reg r) hwidth (by omega)

/-- Settles O34: each read lies inside the four bytes of the store. -/
theorem mixedWidthReadsSeeBigEndian : Obligations.MixedWidthReadsSeeBigEndian := by
  intro s t rs rb off r b hr hb h hok
  have hw : memWrite (effAddr s b off) 4 (s.reg r) s = .next t := (storeBytes_of_names hr hb 4 off s).symm.trans h
  have part (k n : Nat) (hkn : k + n ≤ 4) :
      memRead t (effAddr s b off + BitVec.ofNat 32 k) n = .ok ((s.reg r).extractLsb' (8 * (4 - k - n)) (8 * n)) :=
    memRead_of_memWrite (by decide) hkn hw hok
  have first : memRead t (effAddr s b off) 1 = .ok ((s.reg r).extractLsb' 24 8) := by
    simpa using part 0 1 (by decide)
  exact ⟨first, part 3 1 (by decide), part 1 2 (by decide), memRead_word_of_memWrite hw hok⟩

/-- Settles O35: the store leaves the base register, so the load reads the word just written. -/
theorem loadSeesLastStore : Obligations.LoadSeesLastStore := by
  intro s t u rs rb rd off r b d hr hb hd hs ht hstore h hload h'
  obtain ⟨v, hv⟩ := exec_total (.stw rs rb off) s
  obtain rfl : v.advance = t := by
    rw [step_of_fetches hs hstore, hv] at h
    exact Host.Outcome.next.inj h
  have hw : memWrite (effAddr s b off) 4 (s.reg r) s = .next v := (storeBytes_of_names hr hb 4 off s).symm.trans hv
  have hok : NoFault v := by
    rw [State.advance_status] at ht
    rw [NoFault, ht]
    rfl
  have haddr : effAddr v b off = effAddr s b off := by
    obtain ⟨-, rfl⟩ := memWrite_of_noFault hw hok
    rfl
  have hexec : exec (.ldw rd rb off) v.advance = .next (v.advance.setReg d (s.reg r)) := by
    refine loadBytes_of_ok (n := 4) hd hb (fun x => x) ?_
    rw [effAddr_advance, haddr, memRead_advance, memRead_word_of_memWrite hw hok]
  rw [step_of_fetches ht hload, hexec] at h'
  obtain rfl := Host.Outcome.next.inj h'
  exact ⟨by rw [State.advance_status, State.setReg_status, ht], by rw [State.advance_reg, State.reg_setReg_same]⟩

/-- Settles O7, by the one test a fetch makes. -/
theorem fetchChecksCodeRegion : Obligations.FetchChecksCodeRegion := by
  intro s hs
  refine ⟨fun hout => ⟨_, step_of_fetchFault hs ?_, raised_faultsWith _ s, fun _ => rfl⟩, fun hcode hmem => ?_⟩
  · rw [fetchWord_eq, if_pos hout]
  · rw [fetchWord_eq, if_neg (by omega)]
    rfl

end Sys2Proof.Proofs
end

-- Proofs of the rules of 30_encoding.md: the decoder and the encoder invert each other, what the step does with a decoded
-- or an illegal word, and the checks of register bytes and syscall kinds.
section
/-! PROOFS. The encoder and the decoder as inverses, from two facts about each format: cutting an instruction's own operand
bits gives it back, and the operand bits of a cut word are the bits of the word that its format reads. -/

namespace Sys2Proof.Laws.Fields

/-- The family over all instructions, one member per constructor. -/
theorem of_instr (i : Instr) : Statement i :=
  Instr.casesOn i add sub mul and or xor addi subi muli andi ori xori not shl shr fadd fsub fmul fdiv seti cmp fcmp cmpi
    b beq bne bgt blt bge ble bl beql bnel bgtl bltl bgel blel blr beqlr bnelr bgtlr bltlr bgelr blelr mflr mtlr
    ldb ldh ldw stb sth stw syscall

end Sys2Proof.Laws.Fields

namespace Sys2Proof

/-! ## A word as its fields -/

theorem opcodeByte_append_offField24 (w : Word) : opcodeByte w ++ offField24 w = w :=
  (BitVec.extractLsb'_append_extractLsb'_eq_extractLsb' (start₂ := 24) (start₁ := 0) (len₂ := 8) rfl).trans (extract_all w)

theorem operandByte1_append_immField16 (w : Word) : operandByte 1 w ++ immField16 w = offField24 w :=
  BitVec.extractLsb'_append_extractLsb'_eq_extractLsb' (start₂ := 16) (start₁ := 0) (len₂ := 8) rfl

theorem operandBytes_append (w : Word) : operandByte 1 w ++ operandByte 2 w ++ operandByte 3 w = offField24 w := by
  have high : operandByte 1 w ++ operandByte 2 w = w.extractLsb' 8 16 :=
    BitVec.extractLsb'_append_extractLsb'_eq_extractLsb' (start₂ := 16) (start₁ := 8) (len₂ := 8) rfl
  rw [high]
  exact BitVec.extractLsb'_append_extractLsb'_eq_extractLsb' (start₂ := 8) (start₁ := 0) (len₂ := 16) rfl

/-- The opcode byte and masked operand bits are the word under a mask that keeps the opcode byte. -/
theorem opcodeByte_append_and (w : Word) (mask : BitVec 24) :
    opcodeByte w ++ (offField24 w &&& mask) = w &&& (0xFF#8 ++ mask) := by
  calc opcodeByte w ++ (offField24 w &&& mask)
      = (opcodeByte w &&& BitVec.allOnes 8) ++ (offField24 w &&& mask) := by rw [BitVec.and_allOnes]
    _ = (opcodeByte w ++ offField24 w) &&& (0xFF#8 ++ mask) := BitVec.and_append.symm
    _ = w &&& (0xFF#8 ++ mask) := by rw [opcodeByte_append_offField24]

/-- A mask that keeps the high bits and drops the low ones. -/
theorem append_and_high {m n : Nat} (x : BitVec m) (y : BitVec n) :
    (x ++ y) &&& (BitVec.allOnes m ++ 0#n) = x ++ 0#n := by
  rw [BitVec.and_append, BitVec.and_allOnes, BitVec.and_zero]

/-! ## The two facts about a format -/

/-- The encoder's operand bits for an instruction cut from a word are the word's, unused ones zero (30_encoding.md R87,
R104). -/
theorem operandBits_cutOperands (m : Mnemonic) (w : Word) :
    opcodeByte w ++ (cutOperands m w).operandBits = w &&& m.format.usedMask := by
  have whole : opcodeByte w ++ offField24 w = w &&& 0xFFFFFFFF#32 :=
    (opcodeByte_append_offField24 w).trans BitVec.and_allOnes.symm
  cases m with
  | add | sub | mul | and | or | xor | fadd | fsub | fmul | fdiv | addi | subi | muli | andi | ori | xori | shl | shr
  | ldb | ldh | ldw | stb | sth | stw =>
    exact (congrArg (opcodeByte w ++ ·) (operandBytes_append w)).trans whole
  | seti | cmpi => exact (congrArg (opcodeByte w ++ ·) (operandByte1_append_immField16 w)).trans whole
  | b | beq | bne | bgt | blt | bge | ble | bl | beql | bnel | bgtl | bltl | bgel | blel => exact whole
  | not | cmp | fcmp | syscall =>
    have keep : operandByte 1 w ++ operandByte 2 w ++ 0#8 = offField24 w &&& 0xFFFF00#24 := by
      rw [← operandBytes_append]
      exact (append_and_high (operandByte 1 w ++ operandByte 2 w) (operandByte 3 w)).symm
    exact (congrArg (opcodeByte w ++ ·) keep).trans (opcodeByte_append_and w 0xFFFF00#24)
  | mflr | mtlr =>
    have keep : operandByte 1 w ++ 0#16 = offField24 w &&& 0xFF0000#24 := by
      rw [← operandByte1_append_immField16]
      exact (append_and_high (operandByte 1 w) (immField16 w)).symm
    exact (congrArg (opcodeByte w ++ ·) keep).trans (opcodeByte_append_and w 0xFF0000#24)
  | blr | beqlr | bnelr | bgtlr | bltlr | bgelr | blelr =>
    exact (congrArg (opcodeByte w ++ ·) BitVec.and_zero.symm).trans (opcodeByte_append_and w 0#24)

/-- Cutting the operand bits the encoder writes gives any instruction back (30_encoding.md R109). -/
theorem cutOperands_operandBits (op : Byte) (i : Instr) : cutOperands i.mnemonic (op ++ i.operandBits) = i :=
  Laws.Fields.of_instr i op

/-! ## Words with their unused bits cleared -/

theorem opcodeByte_and_usedMask (m : Mnemonic) (w : Word) : opcodeByte (w &&& m.format.usedMask) = opcodeByte w := by
  rw [← operandBits_cutOperands, opcodeByte_append]

theorem cutOperands_and_usedMask (m : Mnemonic) (w : Word) : cutOperands m (w &&& m.format.usedMask) = cutOperands m w := by
  have h := cutOperands_operandBits (opcodeByte w) (cutOperands m w)
  rwa [operandBits_cutOperands, cutOperands_mnemonic] at h

/-- An encoded word has nothing in its unused bits (30_encoding.md R104). -/
theorem encoded_and_usedMask (op : Byte) (i : Instr) :
    (op ++ i.operandBits) &&& i.mnemonic.format.usedMask = op ++ i.operandBits := by
  rw [← operandBits_cutOperands, opcodeByte_append, cutOperands_operandBits]

/-! ## The opcode map and the decoder -/

/-- Under a well-formed numbering a mnemonic's opcode is the index it stands at (30_encoding.md R80). -/
theorem opcodeOf_eq_some_iff {c : Config} (hc : c.wf) {m : Mnemonic} {op : Byte} :
    opcodeOf c m = some op ↔ c.opcodes[op.toNat]? = some m := by
  refine ⟨opcodeOf_index hc, fun h => ?_⟩
  obtain ⟨hlt, hm⟩ := List.getElem?_eq_some_iff.mp h
  have first : c.opcodes.idxOf? m = some op.toNat :=
    List.idxOf?_eq_some_iff.mpr ⟨hlt, hm, fun j hj hjm =>
      Nat.ne_of_lt hj ((hc.1.getElem_inj_iff).mp (hjm.trans hm.symm))⟩
  rw [opcodeOf, first, Option.map_some, BitVec.ofNat_toNat, BitVec.setWidth_eq]

theorem live_iff_opcodeOf {c : Config} {i : Instr} : i.live c = true ↔ ∃ op, opcodeOf c i.mnemonic = some op := by
  rw [← Option.isSome_iff_exists, opcodeOf, Option.isSome_map, List.isSome_idxOf?, Instr.live, List.contains_iff_mem]

theorem decode_of_opcode {c : Config} {m : Mnemonic} {w : Word} (h : c.opcodes[(opcodeByte w).toNat]? = some m) :
    decode c w = .ok (cutOperands m w) := by
  simp [decode, h]

theorem decode_of_illegal {c : Config} {w : Word} (h : c.opcodes.length ≤ (opcodeByte w).toNat) :
    decode c w = .error (.invalidOpcode (opcodeByte w)) := by
  simp [decode, List.getElem?_eq_none h]

theorem encode_eq_some_iff {c : Config} {i : Instr} {w : Word} :
    encode c i = some w ↔ ∃ op, opcodeOf c i.mnemonic = some op ∧ op ++ i.operandBits = w :=
  Option.map_eq_some_iff

/-- Everything a decoded word says about its instruction (30_encoding.md R92). -/
theorem decode_eq_ok_iff {c : Config} {w : Word} {i : Instr} :
    decode c w = .ok i ↔ ∃ m, c.opcodes[(opcodeByte w).toNat]? = some m ∧ cutOperands m w = i := by
  cases h : c.opcodes[(opcodeByte w).toNat]? with
  | none => simp [decode, h]
  | some m => simp [decode_of_opcode h]

end Sys2Proof

/-! The order of the checks a handler makes: the syscall kind, then the register bytes from B1 to B3. -/

namespace Sys2Proof.Machine

open Sys2Proof.Safety

/-! ## Register bytes -/

/-- An answer that checks register bytes in order before anything else (30_encoding.md R88, 60_exceptions.md R205). -/
inductive ChecksRegs (s : State) : List Byte → Result → Prop where
  | done (r : Result) : ChecksRegs s [] r
  | check {b : Byte} {bs : List Byte} {k : Fin 32 → Result} (h : ∀ j, ChecksRegs s bs (k j)) :
      ChecksRegs s (b :: bs) (withReg b s k)

theorem checksRegs_one {s : State} {b : Byte} {k : Fin 32 → Result} : ChecksRegs s [b] (withReg b s k) :=
  .check fun _ => .done _

theorem checksRegs_two {s : State} {b c : Byte} {k : Fin 32 → Fin 32 → Result} :
    ChecksRegs s [b, c] (withReg b s fun x => withReg c s (k x)) :=
  .check fun _ => checksRegs_one

theorem checksRegs_three {s : State} {b c d : Byte} {k : Fin 32 → Fin 32 → Fin 32 → Result} :
    ChecksRegs s [b, c, d] (withReg b s fun x => withReg c s fun y => withReg d s (k x y)) :=
  .check fun _ => checksRegs_two

/-- The first bad byte of those checked is the one reported, in the state as it was. -/
theorem ChecksRegs.raises {s : State} {before after : List Byte} {b : Byte} {r : Result}
    (h : ChecksRegs s (before ++ b :: after) r) (hok : ∀ x ∈ before, x.toNat < 32) (hb : 32 ≤ b.toNat) :
    r = .next (State.raised (.invalidRegister b) s) := by
  induction before generalizing r with
  | nil =>
    obtain - | _ := h
    exact withReg_of_ge hb ..
  | cons x xs ih =>
    obtain - | hrest := h
    rw [withReg_of_lt (hok x List.mem_cons_self)]
    exact ih (hrest _) fun y hy => hok y (List.mem_cons_of_mem x hy)

/-! ## Syscall kinds -/

theorem kindOf_eq_none_iff {k : SysKinds} {b : Byte} : kindOf k b = none ↔ b ∉ k.all := by
  simp only [kindOf, SysKinds.all]
  grind

theorem execSyscall_of_unknown {kind : Byte} {s : State} (h : kind ∉ s.cfg.kinds.all) (r : Byte) :
    execSyscall kind r s = .next (State.raised (.invalidSyscall kind) s) := by
  rw [execSyscall, kindOf_eq_none_iff.mpr h]
  rfl

/-- A call of a known kind checks its register byte, which `HALT` does not have (45_syscall.md R190). -/
theorem execSyscall_checksRegs {kind r : Byte} {s : State} (hk : kind ∈ s.cfg.kinds.all) :
    ChecksRegs s ((Instr.syscall kind r).regBytes s.cfg) (execSyscall kind r s) := by
  cases h : kindOf s.cfg.kinds kind with
  | none => exact absurd hk (kindOf_eq_none_iff.mp h)
  | some x =>
    have hr (hx : x ≠ .halt) : (Instr.syscall kind r).regBytes s.cfg = [r] := if_neg (kindOf_not_halt h hx)
    rw [execSyscall, h]
    cases x with
    | print | iprint | fprint | qmb =>
      rw [hr (by decide)]
      exact checksRegs_one
    | halt =>
      rw [show (Instr.syscall kind r).regBytes s.cfg = [] from if_pos (kindOf_halt h)]
      exact .done _

/-! ## The shared forms of the instruction families -/

section Forms

variable {s : State} {b c d : Byte}

theorem aluRegs_checksRegs {f : Word → Word → Word} : ChecksRegs s [b, c, d] (aluRegs f b c d s) := checksRegs_three

theorem floatRegs_checksRegs {f : Word → Word → Computed} : ChecksRegs s [b, c, d] (floatRegs f b c d s) :=
  checksRegs_three

theorem aluImm_checksRegs {f : Word → Word → Word} : ChecksRegs s [b, c] (aluImm f b c d s) := checksRegs_two

theorem shiftBy_checksRegs {f : Word → Nat → Word} : ChecksRegs s [b, c] (shiftBy f b c d s) := checksRegs_two

theorem compareRegs_checksRegs {f : Word → Word → Flags} : ChecksRegs s [b, c] (compareRegs f b c s) := checksRegs_two

theorem loadBytes_checksRegs {n : Nat} {ext : BitVec (8 * n) → Word} :
    ChecksRegs s [b, c] (loadBytes n ext b c d s) := checksRegs_two

theorem storeBytes_checksRegs {n : Nat} : ChecksRegs s [b, c] (storeBytes n b c d s) := checksRegs_two

end Forms

/-- Every handler checks its register bytes in order before anything else, a syscall after its kind. -/
theorem exec_checksRegs {i : Instr} {s : State} (hk : i.kindKnown s.cfg = true) :
    ChecksRegs s (i.regBytes s.cfg) (exec i s) := by
  cases i with
  | add | sub | mul | and | or | xor => exact aluRegs_checksRegs
  | fadd | fsub | fmul | fdiv => exact floatRegs_checksRegs
  | addi | subi | muli | andi | ori | xori => exact aluImm_checksRegs
  | shl | shr => exact shiftBy_checksRegs
  | cmp | fcmp => exact compareRegs_checksRegs
  | ldb | ldh | ldw => exact loadBytes_checksRegs
  | stb | sth | stw => exact storeBytes_checksRegs
  | not rd ra => exact (checksRegs_two : ChecksRegs s [rd, ra] (execNot rd ra s))
  | seti rd imm => exact (checksRegs_one : ChecksRegs s [rd] (execSeti rd imm s))
  | cmpi ra imm => exact (checksRegs_one : ChecksRegs s [ra] (execCmpi ra imm s))
  | mflr rd => exact (checksRegs_one : ChecksRegs s [rd] (execMflr rd s))
  | mtlr rs => exact (checksRegs_one : ChecksRegs s [rs] (execMtlr rs s))
  | b | beq | bne | bgt | blt | bge | ble | bl | beql | bnel | bgtl | bltl | bgel | blel => exact .done _
  | blr | beqlr | bnelr | bgtlr | bltlr | bgelr | blelr => exact .done _
  | syscall kind r => exact execSyscall_checksRegs (List.contains_iff_mem.mp hk)

end Sys2Proof.Machine

/-! The obligations of 30_encoding.md, each read off the laws above. -/

namespace Sys2Proof.Proofs

open Sys2Proof.Machine Sys2Proof.Safety

/-- Settles O2: the numbering gives the mnemonic back and the format its operands. -/
theorem encodeThenDecode : Obligations.EncodeThenDecode := by
  intro c i hc hlive
  obtain ⟨op, hop⟩ := live_iff_opcodeOf.mp hlive
  refine ⟨_, encode_eq_some_iff.mpr ⟨op, hop, rfl⟩, decode_eq_ok_iff.mpr ⟨i.mnemonic, ?_, ?_⟩⟩
  · rw [opcodeByte_append]
    exact opcodeOf_index hc hop
  · exact cutOperands_operandBits op i

/-- Settles O3: the opcode byte stands at its own index, and the operand bits are the word's. -/
theorem decodeThenEncode : Obligations.DecodeThenEncode := by
  intro c i w hc h
  obtain ⟨m, hm, rfl⟩ := decode_eq_ok_iff.mp h
  rw [encode_eq_some_iff, cutOperands_mnemonic]
  exact ⟨_, (opcodeOf_eq_some_iff hc).mpr hm, operandBits_cutOperands m w⟩

/-- Settles O4: a word and the word with its unused bits cleared have the same opcode byte and the same operands. -/
theorem unusedBytesIgnored : Obligations.UnusedBytesIgnored := by
  refine ⟨fun c m w hm => ⟨?_, fun s hcfg hs hw => ?_⟩, fun c i w h => ?_⟩
  · have hmasked : c.opcodes[(opcodeByte (w &&& m.format.usedMask)).toNat]? = some m := by
      rw [opcodeByte_and_usedMask, hm]
    rw [decode_of_opcode hm, decode_of_opcode hmasked, cutOperands_and_usedMask]
  · rw [cutOperands_and_usedMask]
    exact step_of_decoded hs hw (hcfg ▸ decode_of_opcode hm)
  · obtain ⟨op, -, rfl⟩ := encode_eq_some_iff.mp h
    exact encoded_and_usedMask op i

/-- Settles O40, by the order in which a handler checks its register bytes. -/
theorem firstBadRegisterByteFaults : Obligations.FirstBadRegisterByteFaults := by
  intro s i before after b hk hbytes hok hb
  have h := exec_checksRegs hk
  rw [hbytes] at h
  exact ⟨_, h.raises hok hb, raised_faultsWith _ s, fun _ => rfl⟩

/-- Settles O1, by decoding each word. -/
theorem specWordsDecode : Obligations.SpecWordsDecode := by
  unfold Obligations.SpecWordsDecode
  decide

/-- Settles O5: the decoder reads the mnemonic at the opcode's index, and there is none at or above the count. -/
theorem opcodesAreDense : Obligations.OpcodesAreDense := by
  refine fun c w => ⟨fun h => ⟨_, decode_of_opcode (List.getElem?_eq_getElem h), ?_⟩, decode_of_illegal⟩
  exact cutOperands_mnemonic _ w

/-- Settles O6, by the two cases of the increment. -/
theorem stepRunsDecodedInstruction : Obligations.StepRunsDecodedInstruction := by
  intro s i hs hi
  have hstep := step_of_fetches hs hi
  refine ⟨hstep, fun t ht => ?_⟩
  rw [ht, advanceResult_next] at hstep
  exact ⟨fun hok => by rw [hstep, State.advance_of_not_faulted hok],
    fun hbad => by rw [hstep, State.advance_of_faulted hbad]⟩

/-- Settles O8: such a word decodes to no instruction, so the step raises the fault before any handler runs. -/
theorem illegalOpcodeRaises : Obligations.IllegalOpcodeRaises :=
  ⟨fun s _ hs hw hop => ⟨_, step_of_invalidOpcode hs hw (decode_of_illegal hop), raised_faultsWith _ s, fun _ => rfl⟩, rfl⟩

/-- Settles O39: the kind is checked before the register byte. -/
theorem unknownKindFaults : Obligations.UnknownKindFaults :=
  fun s _ r hkind => ⟨_, execSyscall_of_unknown hkind r, raised_faultsWith _ s, fun _ => rfl⟩

end Sys2Proof.Proofs
end

-- Proofs of the rules of 40_alu.md: integer arithmetic, logic and shifts.
section
/-! PROOFS. The word operations as arithmetic on naturals and integers, and what a handler of each form writes. -/

namespace Sys2Proof

/-! ## The word operations as arithmetic modulo `2^n` -/

section WordOps

variable {n : Nat} (x y : BitVec n) (k : Nat)

theorem sub_eq_ofInt : x - y = BitVec.ofInt n ((x.toNat : Int) - y.toNat) := by
  rw [Int.sub_eq_add_neg, BitVec.ofInt_add, BitVec.ofInt_neg, BitVec.ofInt_natCast, BitVec.ofInt_natCast,
    BitVec.ofNat_toNat, BitVec.ofNat_toNat, BitVec.setWidth_eq, BitVec.setWidth_eq, BitVec.sub_eq_add_neg]

theorem not_eq_ofNat : ~~~x = BitVec.ofNat n (2 ^ n - 1 - x.toNat) := by
  rw [← BitVec.toNat_not, BitVec.ofNat_toNat, BitVec.setWidth_eq]

theorem shiftLeft_eq_ofNat : x <<< k = BitVec.ofNat n (x.toNat * 2 ^ k) := by
  apply BitVec.eq_of_toNat_eq
  rw [BitVec.toNat_shiftLeft, BitVec.toNat_ofNat, Nat.shiftLeft_eq]

theorem ushiftRight_eq_ofNat : x >>> k = BitVec.ofNat n (x.toNat / 2 ^ k) := by
  rw [← Nat.shiftRight_eq_div_pow, ← BitVec.toNat_ushiftRight, BitVec.ofNat_toNat, BitVec.setWidth_eq]

/-- Integer division by a positive number rounds down, as an arithmetic shift does (40_alu.md R125). -/
theorem sshiftRight_eq_ofInt : x.sshiftRight k = BitVec.ofInt n (x.toInt / (2 ^ k : Nat)) := by
  rw [BitVec.sshiftRight, Int.shiftRight_eq_div_pow]

end WordOps

end Sys2Proof

namespace Sys2Proof.Machine

open Sys2Proof.Safety

/-! ## Register writes as effects on the whole state -/

theorem setComputed_sameRegsBut (s : State) (d : Fin 32) (c : Computed) : SameRegsBut d s (s.setComputed d c) :=
  fun _ hj => State.setComputed_reg_ne s c hj

/-- Writing a computed value changes nothing but the register and the draw count (40_alu.md R110). -/
theorem setComputed_sameButRegs (s : State) (d : Fin 32) (c : Computed) : SameButRegs s (s.setComputed d c) := by
  simp [SameButRegs, SameBytes, SameLoad]

theorem setReg_writesReg (s : State) (d : Fin 32) (v : Word) : WritesReg d v s (s.setReg d v) :=
  ⟨State.reg_setReg_same s d v, setComputed_sameRegsBut s d (.value v), setComputed_sameButRegs s d (.value v)⟩

/-! ## The immediate -/

/-- The 8-bit immediate is a number or a signed number, as `IMM8_EXT` says (30_encoding.md R79). -/
theorem immX_eq {c : Config} {imm : Byte} {v : Word}
    (h : (c.imm8Ext = .zero ∧ v = BitVec.ofNat 32 imm.toNat) ∨ (c.imm8Ext = .sign ∧ v = BitVec.ofInt 32 imm.toInt)) :
    immX c imm = v := by
  obtain ⟨hext, rfl⟩ | ⟨hext, rfl⟩ := h
  · rw [immX, hext, BitVec.ofNat_toNat]
    rfl
  · rw [immX, hext]
    rfl

/-! ## The forms under valid register bytes -/

section Forms

variable {rd ra rb : Byte} {d a b : Fin 32} (hd : Names rd d) (ha : Names ra a)

include hd ha

theorem aluRegs_writesReg (hb : Names rb b) {f : Word → Word → Word} {s : State} {v : Word}
    (hv : f (s.reg a) (s.reg b) = v) : ∃ t, aluRegs f rd ra rb s = .next t ∧ WritesReg d v s t := by
  rw [aluRegs, withReg_of_names hd, withReg_of_names ha, withReg_of_names hb, hv]
  exact ⟨_, rfl, setReg_writesReg s d v⟩

theorem aluImm_writesReg {f : Word → Word → Word} {imm : Byte} {s : State} {v : Word}
    (hv : f (s.reg a) (immX s.cfg imm) = v) : ∃ t, aluImm f rd ra imm s = .next t ∧ WritesReg d v s t := by
  rw [aluImm, withReg_of_names hd, withReg_of_names ha, hv]
  exact ⟨_, rfl, setReg_writesReg s d v⟩

theorem execNot_writesReg {s : State} {v : Word} (hv : ~~~s.reg a = v) :
    ∃ t, execNot rd ra s = .next t ∧ WritesReg d v s t := by
  rw [execNot, withReg_of_names hd, withReg_of_names ha, hv]
  exact ⟨_, rfl, setReg_writesReg s d v⟩

theorem shiftBy_of_names (f : Word → Nat → Word) (amt : Byte) (s : State) :
    shiftBy f rd ra amt s =
      .next (s.setComputed d (if amt.toNat < 32 then .value (f (s.reg a) amt.toNat) else .anyWord)) := by
  rw [shiftBy, withReg_of_names hd, withReg_of_names ha]

theorem shiftBy_writesReg {f : Word → Nat → Word} {amt : Byte} {s : State} {v : Word} (hamt : amt.toNat < 32)
    (hv : f (s.reg a) amt.toNat = v) : ∃ t, shiftBy f rd ra amt s = .next t ∧ WritesReg d v s t := by
  rw [shiftBy_of_names hd ha, if_pos hamt, hv]
  exact ⟨_, rfl, setReg_writesReg s d v⟩

/-- Whatever the amount, a shift touches the destination and nothing else (40_alu.md R124, R125). -/
theorem shiftBy_frame (f : Word → Nat → Word) (amt : Byte) (s : State) :
    ∃ t, shiftBy f rd ra amt s = .next t ∧ SameRegsBut d s t ∧ SameButRegs s t :=
  ⟨_, shiftBy_of_names hd ha f amt s, setComputed_sameRegsBut s d _, setComputed_sameButRegs s d _⟩

end Forms

end Sys2Proof.Machine

/-! The obligations of 40_alu.md, each read off the laws above. -/

namespace Sys2Proof.Proofs

open Sys2Proof.Machine Sys2Proof.Safety

/-- Settles O14: each shift is the arithmetic of its word operation, a right shift's chosen by `SHR_KIND`. -/
theorem shiftResult : Obligations.ShiftResult := by
  refine fun s rd ra amt d a hd ha hamt => ⟨?_, fun hkind => ?_, fun hkind => ?_⟩
  · exact shiftBy_writesReg hd ha hamt (shiftLeft_eq_ofNat ..)
  · refine shiftBy_writesReg hd ha hamt ?_
    rw [hkind]
    exact ushiftRight_eq_ofNat ..
  · refine shiftBy_writesReg hd ha hamt ?_
    rw [hkind]
    exact sshiftRight_eq_ofInt ..

/-- Settles O11, instruction by instruction. -/
theorem integerRegistersResult : Obligations.IntegerRegistersResult := by
  intro s rd ra rb d a b hd ha hb p hp
  simp only [List.mem_cons, List.not_mem_nil, or_false] at hp
  obtain rfl | rfl | rfl | rfl | rfl | rfl := hp
  · exact aluRegs_writesReg hd ha hb (BitVec.add_def ..)
  · exact aluRegs_writesReg hd ha hb (sub_eq_ofInt ..)
  · exact aluRegs_writesReg hd ha hb (BitVec.mul_def ..)
  · exact aluRegs_writesReg hd ha hb rfl
  · exact aluRegs_writesReg hd ha hb rfl
  · exact aluRegs_writesReg hd ha hb rfl

/-- Settles O12, instruction by instruction, with the immediate for the second operand. -/
theorem integerImmediateResult : Obligations.IntegerImmediateResult := by
  intro s rd ra imm d a v hd ha hv p hp
  obtain rfl := immX_eq hv
  simp only [List.mem_cons, List.not_mem_nil, or_false] at hp
  obtain rfl | rfl | rfl | rfl | rfl | rfl := hp
  · exact aluImm_writesReg hd ha (BitVec.add_def ..)
  · exact aluImm_writesReg hd ha (sub_eq_ofInt ..)
  · exact aluImm_writesReg hd ha (BitVec.mul_def ..)
  · exact aluImm_writesReg hd ha rfl
  · exact aluImm_writesReg hd ha rfl
  · exact aluImm_writesReg hd ha rfl

/-- Settles O13: the complement is the distance to the greatest word. -/
theorem notResult : Obligations.NotResult :=
  fun _ _ _ _ _ hd ha => execNot_writesReg hd ha (not_eq_ofNat _)

/-- Settles O15: both shifts are `shiftBy`, which has the same frame for every amount. -/
theorem shiftBeyondWidthRuns : Obligations.ShiftBeyondWidthRuns := by
  intro s rd ra amt d a hd ha _ i hi
  simp only [List.mem_cons, List.not_mem_nil, or_false] at hi
  obtain rfl | rfl := hi
  · exact shiftBy_frame hd ha ..
  · exact shiftBy_frame hd ha ..

end Sys2Proof.Proofs
end

-- Proofs of the rules of 41_float.md: rounding, and the results of the float instructions on every class of operands.
section
/-! PROOFS. The rounding is nearest and even among whole multiples of its step, and so among all binary32 magnitudes; a
sign keeps it so. Each operation has an equation per case of its operands' classes, and the four handlers are one form. -/

namespace Sys2Proof.Machine

open Sys2Proof.Safety

/-! ## Rounding to a whole number -/

/-- `r` is within half of `num / den`, and a tie goes to the even neighbour. -/
structure RoundsTo (num den r : Nat) : Prop where
  le_above : 2 * (den * r) ≤ 2 * num + den
  le_below : 2 * num ≤ 2 * (den * r) + den
  even_of_tie : 2 * (den * r) = 2 * num + den ∨ 2 * num = 2 * (den * r) + den → r % 2 = 0

theorem roundQuot_roundsTo (num : Nat) {den : Nat} (hden : 0 < den) : RoundsTo num den (roundQuot num den) := by
  have hnum : den * (num / den) + num % den = num := Nat.div_add_mod num den
  have hrem : num % den < den := Nat.mod_lt num hden
  have hup : den * (num / den + 1) = den * (num / den) + den := Nat.mul_succ ..
  unfold roundQuot
  by_cases hlt : 2 * (num % den) < den
  · simp only [if_pos hlt]
    constructor <;> omega
  · by_cases htie : 2 * (num % den) = den
    · simp only [if_neg hlt, if_pos htie]
      obtain heven | hodd := Nat.mod_two_eq_zero_or_one (num / den)
      · rw [heven, Nat.add_zero]
        constructor <;> omega
      · rw [hodd]
        constructor <;> omega
    · simp only [if_neg hlt, if_neg htie]
      constructor <;> omega

theorem dist_lt_of_lt {x y z : Nat} (hyz : y < z) (hzx : z ≤ x) : Safety.dist x z < Safety.dist x y := by
  unfold Safety.dist
  omega

/-- No whole number of steps is nearer, and another one as near leaves an even result. -/
theorem RoundsTo.nearest {num den r : Nat} (h : RoundsTo num den r) (m : Nat) :
    Safety.dist num (den * r : Nat) ≤ Safety.dist num (den * m : Nat) ∧
      (m ≠ r → Safety.dist num (den * r : Nat) = Safety.dist num (den * m : Nat) → r % 2 = 0) := by
  obtain ⟨habove, hbelow, htie⟩ := h
  unfold Safety.dist
  obtain hlt | rfl | hgt := Nat.lt_trichotomy m r
  · have hstep : den * m + den ≤ den * r := Nat.mul_le_mul_left den hlt
    constructor <;> omega
  · exact ⟨Nat.le_refl _, fun hne => absurd rfl hne⟩
  · have hstep : den * r + den ≤ den * m := Nat.mul_le_mul_left den hgt
    constructor <;> omega

theorem RoundsTo.le_of_lt {num den r n : Nat} (h : RoundsTo num den r) (hn : num < den * n) : r ≤ n := by
  by_contra hlt
  have hstep : den * n + den ≤ den * r := Nat.mul_le_mul_left den (Nat.not_le.mp hlt)
  have habove := h.le_above
  omega

theorem RoundsTo.ge_of_le {num den r n : Nat} (h : RoundsTo num den r) (hden : 0 < den) (hn : den * n ≤ num) : n ≤ r := by
  by_contra hlt
  have hstep : den * r + den ≤ den * n := Nat.mul_le_mul_left den (Nat.not_le.mp hlt)
  have hbelow := h.le_below
  omega

/-! ## The binary32 magnitudes -/

/-- Exponent and fraction bits as a whole number of steps, the carry into the next exponent included. -/
theorem magOf_steps {k r : Nat} (hk : k = 0 ∨ 2 ^ 23 ≤ r) (hr : r ≤ 2 ^ 24) : magOf (k * 2 ^ 23 + r) = r * 2 ^ k := by
  by_cases hsub : r < 2 ^ 23
  · obtain rfl : k = 0 := by omega
    have hexp : (0 * 2 ^ 23 + r) / 2 ^ 23 = 0 := by omega
    rw [magOf, if_pos hexp]
    omega
  · obtain ⟨f, rfl⟩ := Nat.exists_eq_add_of_le (Nat.not_lt.mp hsub)
    obtain hf | rfl : f < 2 ^ 23 ∨ f = 2 ^ 23 := by omega
    · have hexp : (k * 2 ^ 23 + (2 ^ 23 + f)) / 2 ^ 23 = k + 1 := by omega
      have hfrac : (k * 2 ^ 23 + (2 ^ 23 + f)) % 2 ^ 23 = f := by omega
      rw [magOf, hexp, hfrac, if_neg (Nat.succ_ne_zero k), Nat.add_sub_cancel]
    · have hexp : (k * 2 ^ 23 + (2 ^ 23 + 2 ^ 23)) / 2 ^ 23 = k + 2 := by omega
      have hfrac : (k * 2 ^ 23 + (2 ^ 23 + 2 ^ 23)) % 2 ^ 23 = 0 := by omega
      rw [magOf, hexp, hfrac, if_neg (by omega), show k + 2 - 1 = k + 1 by omega, Nat.pow_succ]
      omega

/-- Every magnitude is fewer than `2^24` steps, and at least `2^23` unless the step is one unit. -/
theorem exists_steps (p : Nat) : ∃ k r, p = k * 2 ^ 23 + r ∧ (k = 0 ∨ 2 ^ 23 ≤ r) ∧ r < 2 ^ 24 := by
  obtain hsub | hnorm := Nat.lt_or_ge p (2 ^ 23)
  · exact ⟨0, p, by omega, .inl rfl, by omega⟩
  · exact ⟨p / 2 ^ 23 - 1, 2 ^ 23 + p % 2 ^ 23, by omega, .inr (by omega), by omega⟩

theorem magOf_strictMono : StrictMono magOf := by
  refine strictMono_nat_of_lt_succ fun p => ?_
  obtain ⟨k, r, rfl, hk, hr⟩ := exists_steps p
  rw [magOf_steps hk (Nat.le_of_lt hr), Nat.add_assoc, magOf_steps (hk.imp_right (by omega)) hr]
  exact Nat.mul_lt_mul_of_pos_right (Nat.lt_succ_self r) (Nat.two_pow_pos k)

/-- A magnitude is a whole number of steps of `2^k`, or is below `2^23` of them. -/
theorem magOf_multiple_or_lt (p k : Nat) : (∃ m, magOf p = m * 2 ^ k) ∨ k ≠ 0 ∧ magOf p < 2 ^ 23 * 2 ^ k := by
  obtain ⟨j, r, rfl, hj, hr⟩ := exists_steps p
  rw [magOf_steps hj (Nat.le_of_lt hr)]
  obtain hjk | hkj := Nat.lt_or_ge j k
  · refine .inr ⟨by omega, ?_⟩
    calc r * 2 ^ j < 2 ^ 24 * 2 ^ j := Nat.mul_lt_mul_of_pos_right hr (Nat.two_pow_pos j)
      _ = 2 ^ 23 * 2 ^ (j + 1) := by rw [Nat.pow_succ]; omega
      _ ≤ 2 ^ 23 * 2 ^ k := Nat.mul_le_mul_left _ (Nat.pow_le_pow_right (by omega) hjk)
  · refine .inl ⟨r * 2 ^ (j - k), ?_⟩
    rw [Nat.mul_assoc, ← Nat.pow_add, Nat.sub_add_cancel hkj]

/-! ## The rounding -/

/-- With the step `2^k` that `roundMag` picks, the quotient in steps has at most 24 significant bits, and all 24 unless the
step is one unit. -/
theorem exists_roundingStep (num : Nat) {den : Nat} (hden : 0 < den) :
    ∃ k, num < den * 2 ^ k * 2 ^ 24 ∧ (k = 0 ∨ den * 2 ^ k * 2 ^ 23 ≤ num) ∧
      roundMag num den = if 254 ≤ k then infBits else k * 2 ^ 23 + roundQuot num (den * 2 ^ k) := by
  refine ⟨if num / den < 2 ^ 24 then 0 else (num / den).log2 - 23, ?_⟩
  rw [← and_assoc]
  refine ⟨?_, rfl⟩
  obtain hsmall | hlarge := Nat.lt_or_ge (num / den) (2 ^ 24)
  · rw [if_pos hsmall, Nat.pow_zero, Nat.mul_one]
    exact ⟨(Nat.div_lt_iff_lt_mul hden).mp hsmall |>.trans_eq (Nat.mul_comm ..), .inl rfl⟩
  · obtain ⟨k, hk⟩ : ∃ k, (num / den).log2 = k + 23 := by
      have hlog : 24 ≤ (num / den).log2 := (Nat.le_log2 (by omega)).mpr hlarge
      exact ⟨_, (Nat.sub_add_cancel (by omega)).symm⟩
    obtain ⟨hlow, hhigh⟩ := (Nat.log2_eq_iff (by omega)).mp hk
    rw [if_neg (Nat.not_lt.mpr hlarge), hk, Nat.add_sub_cancel, Nat.mul_assoc, Nat.mul_assoc, ← Nat.pow_add, ← Nat.pow_add]
    exact ⟨((Nat.div_lt_iff_lt_mul hden).mp hhigh).trans_eq (Nat.mul_comm ..),
      .inr ((Nat.mul_comm ..).trans_le ((Nat.le_div_iff_mul_le hden).mp hlow))⟩

/-- `roundMag` is the rounding to a whole number `r` of steps, of at most 24 bits, with the bits of `k` above it. -/
theorem exists_steps_roundMag (num : Nat) {den : Nat} (hden : 0 < den) :
    ∃ k r, RoundsTo num (den * 2 ^ k) r ∧ r ≤ 2 ^ 24 ∧ (k = 0 ∨ 2 ^ 23 ≤ r ∧ den * 2 ^ k * 2 ^ 23 ≤ num) ∧
      roundMag num den = if 254 ≤ k then infBits else k * 2 ^ 23 + r := by
  obtain ⟨k, hlt, hge, heq⟩ := exists_roundingStep num hden
  have hstep : 0 < den * 2 ^ k := Nat.mul_pos hden (Nat.two_pow_pos k)
  have hround := roundQuot_roundsTo num hstep
  exact ⟨k, _, hround, hround.le_of_lt hlt, hge.imp_right fun h => ⟨hround.ge_of_le hstep h, h⟩, heq⟩

theorem roundMag_zero (den : Nat) : roundMag 0 den = 0 := by
  simp [roundMag, roundQuot, eq_comm]

/-- Up to infinity's bits, which are reached from half a step beyond the largest finite value on. -/
theorem roundMag_le_infBits (num : Nat) {den : Nat} (hden : 0 < den) : roundMag num den ≤ infBits := by
  obtain ⟨k, r, -, hr, -, heq⟩ := exists_steps_roundMag num hden
  rw [heq, infBits]
  split <;> omega

theorem roundMag_eq_infBits_iff (num : Nat) {den : Nat} (hden : 0 < den) :
    roundMag num den = infBits ↔ den * ((2 ^ 25 - 1) * 2 ^ 253) ≤ 2 * num := by
  obtain ⟨k, r, hround, hr, hk, heq⟩ := exists_steps_roundMag num hden
  obtain ⟨big, hbig⟩ : ∃ big, big = den * 2 ^ 253 := ⟨_, rfl⟩
  have hpos : 0 < big := hbig ▸ Nat.mul_pos hden (Nat.two_pow_pos 253)
  rw [heq, infBits, Nat.mul_left_comm, ← hbig]
  obtain hlt | rfl | hgt := Nat.lt_trichotomy k 253
  · have hstep : den * 2 ^ k * 2 ≤ big := by
      rw [hbig, Nat.mul_assoc, ← Nat.pow_succ]
      exact Nat.mul_le_mul_left den (Nat.pow_le_pow_right Nat.two_pos hlt)
    have hsteps : den * 2 ^ k * r ≤ den * 2 ^ k * 2 ^ 24 := Nat.mul_le_mul_left _ hr
    have hbelow := hround.le_below
    rw [if_neg (by omega)]
    constructor <;> intro <;> omega
  · rw [← hbig] at hround
    rw [if_neg (by omega)]
    obtain hless | rfl | rfl : r ≤ 2 ^ 24 - 2 ∨ r = 2 ^ 24 - 1 ∨ r = 2 ^ 24 := by omega
    · have hsteps : big * r ≤ big * (2 ^ 24 - 2) := Nat.mul_le_mul_left _ hless
      have hbelow := hround.le_below
      constructor <;> intro <;> omega
    · have hbelow := hround.le_below
      have hodd := mt hround.even_of_tie (by decide)
      constructor <;> intro <;> omega
    · have habove := hround.le_above
      constructor <;> intro <;> omega
  · have hstep : big * 2 ≤ den * 2 ^ k := by
      rw [hbig, Nat.mul_assoc, ← Nat.pow_succ]
      exact Nat.mul_le_mul_left den (Nat.pow_le_pow_right Nat.two_pos hgt)
    rw [if_pos (by omega)]
    constructor <;> intro <;> omega

/-- No binary32 magnitude is nearer than the rounded one, and another one as near leaves an even result. -/
theorem roundMag_nearest (num : Nat) {den : Nat} (hden : 0 < den) (hfin : roundMag num den < infBits) (p : Nat) :
    Safety.dist num (den * magOf (roundMag num den) : Nat) ≤ Safety.dist num (den * magOf p : Nat) ∧
      (p ≠ roundMag num den →
        Safety.dist num (den * magOf (roundMag num den) : Nat) = Safety.dist num (den * magOf p : Nat) →
        roundMag num den % 2 = 0) := by
  obtain ⟨k, r, hround, hr, hk, heq⟩ := exists_steps_roundMag num hden
  replace heq : roundMag num den = k * 2 ^ 23 + r := by
    split at heq
    · omega
    · exact heq
  have hmag : den * magOf (roundMag num den) = den * 2 ^ k * r := by
    rw [heq, magOf_steps (hk.imp_right And.left) hr, Nat.mul_comm r, Nat.mul_assoc]
  have heven : r % 2 = 0 → roundMag num den % 2 = 0 := by omega
  rw [hmag]
  obtain ⟨m, hm⟩ | ⟨hk0, hlt⟩ := magOf_multiple_or_lt p k
  · have hp : den * magOf p = den * 2 ^ k * m := by rw [hm, Nat.mul_comm m, Nat.mul_assoc]
    have hne : p ≠ roundMag num den → m ≠ r := by
      rintro hne rfl
      exact hne (magOf_strictMono.injective (Nat.eq_of_mul_eq_mul_left hden (hp.trans hmag.symm)))
    rw [hp]
    exact ⟨(hround.nearest m).1, fun h htie => heven ((hround.nearest m).2 (hne h) htie)⟩
  · have hbelow : den * magOf p < den * 2 ^ k * 2 ^ 23 := by
      rw [Nat.mul_assoc, Nat.mul_comm (2 ^ k)]
      exact Nat.mul_lt_mul_of_pos_left hlt hden
    have hlow : den * 2 ^ k * 2 ^ 23 ≤ num := (hk.resolve_left hk0).2
    have hfarther := (hround.nearest (2 ^ 23)).1.trans_lt (dist_lt_of_lt hbelow hlow)
    exact ⟨hfarther.le, fun _ htie => absurd htie hfarther.ne⟩

/-! ## The three parts of a pattern -/

/-- The 31 bits below the sign: exponent and fraction. -/
def floatBits (v : Word) : Nat := (v.extractLsb' 0 31).toNat

theorem floatExp_eq (v : Word) : floatExp v = floatBits v / 2 ^ 23 := by
  simp only [floatExp, floatBits, BitVec.extractLsb'_toNat, Nat.shiftRight_eq_div_pow]
  omega

theorem floatFrac_eq (v : Word) : floatFrac v = floatBits v % 2 ^ 23 := by
  simp only [floatFrac, floatBits, BitVec.extractLsb'_toNat, Nat.shiftRight_eq_div_pow]
  omega

theorem floatBits_lt (v : Word) : floatBits v < 2 ^ 31 := BitVec.isLt _

/-- The classes in the order of the bits below the sign: finite values, infinity, NaNs. -/
theorem floatClass_eq (v : Word) :
    floatClass v =
      if floatBits v < infBits then .fin (floatSign v) (magOf (floatBits v))
      else if floatBits v = infBits then .inf (floatSign v) else .nan := by
  have hlt := floatBits_lt v
  rw [floatClass, floatExp_eq, floatFrac_eq, infBits]
  obtain hfin | hinf | hnan := Nat.lt_trichotomy (floatBits v) 0x7F800000
  · rw [if_pos hfin, if_neg (by omega), magOf]
    obtain hsub | hnorm := Nat.eq_zero_or_pos (floatBits v / 2 ^ 23)
    · rw [if_pos hsub, if_pos hsub, Nat.mod_eq_of_lt (by omega)]
    · rw [if_neg (by omega), if_neg (by omega)]
  · rw [if_pos (by omega), if_pos (by omega), if_neg (by omega), if_pos hinf]
  · rw [if_pos (by omega), if_neg (by omega), if_neg (by omega), if_neg (by omega)]

@[simp] theorem floatSign_floatPack (neg : Bool) {p : Nat} (hp : p < 2 ^ 31) : floatSign (floatPack neg p) = neg := by
  rw [floatSign, floatPack, BitVec.getLsbD_ofNat]
  cases neg
  · simp [Nat.testBit_lt_two_pow hp]
  · simp only [if_true, Nat.testBit_two_pow_add_eq, Nat.testBit_lt_two_pow hp]
    rfl

@[simp] theorem floatBits_floatPack (neg : Bool) {p : Nat} (hp : p < 2 ^ 31) : floatBits (floatPack neg p) = p := by
  simp only [floatBits, floatPack, BitVec.extractLsb'_toNat, BitVec.toNat_ofNat]
  cases neg <;> simp <;> omega

theorem floatSign_floatNeg (v : Word) : floatSign (floatNeg v) = !floatSign v := by
  simp [floatSign, floatNeg]

theorem floatBits_floatNeg (v : Word) : floatBits (floatNeg v) = floatBits v := by
  rw [floatBits, floatNeg, BitVec.extractLsb'_xor, show (0x80000000#32).extractLsb' 0 31 = 0#31 by decide, BitVec.xor_zero]
  rfl

/-! ## The class of a pattern -/

theorem floatClass_eq_inf {v : Word} {x : Bool} (h : floatClass v = .inf x) : floatSign v = x := by
  rw [floatClass_eq] at h
  split_ifs at h
  exact FloatClass.inf.inj h

theorem floatClass_eq_fin {v : Word} {x : Bool} {m : Nat} (h : floatClass v = .fin x m) :
    floatSign v = x ∧ magOf (floatBits v) = m := by
  rw [floatClass_eq] at h
  split_ifs at h
  exact FloatClass.fin.inj h

/-- A class with its sign flipped where asked. -/
def FloatClass.flipIf (flip : Bool) : FloatClass → FloatClass
  | .nan => .nan
  | .inf x => .inf (x ^^ flip)
  | .fin x m => .fin (x ^^ flip) m

theorem floatClass_floatNeg (v : Word) : floatClass (floatNeg v) = (floatClass v).flipIf true := by
  rw [floatClass_eq, floatClass_eq v, floatBits_floatNeg, floatSign_floatNeg]
  split_ifs <;> simp [FloatClass.flipIf]

theorem FloatClass.flipIf_false (c : FloatClass) : c.flipIf false = c := by
  cases c <;> simp [FloatClass.flipIf]

theorem floatClass_floatPack_fin (neg : Bool) {p : Nat} (hp : p < infBits) :
    floatClass (floatPack neg p) = .fin neg (magOf p) := by
  have hlt : p < 2 ^ 31 := hp.trans (by decide)
  rw [floatClass_eq, floatBits_floatPack neg hlt, floatSign_floatPack neg hlt, if_pos hp]

@[simp] theorem floatClass_floatPack_inf (neg : Bool) : floatClass (floatPack neg infBits) = .inf neg := by
  have hlt : infBits < 2 ^ 31 := by decide
  rw [floatClass_eq, floatBits_floatPack neg hlt, floatSign_floatPack neg hlt, if_neg (Nat.lt_irrefl _), if_pos rfl]

@[simp] theorem floatClass_floatPack_zero (neg : Bool) : floatClass (floatPack neg 0) = .fin neg 0 :=
  floatClass_floatPack_fin neg (by decide)

theorem floatPack_getLsbD_zero (neg : Bool) (p : Nat) : (floatPack neg p).getLsbD 0 = decide (p % 2 = 1) := by
  rw [floatPack, BitVec.getLsbD_ofNat]
  cases neg
  · simp [Nat.testBit_zero]
  · simp [Nat.testBit_zero]
    omega

/-! ## Signed values -/

theorem withSign_natAbs_self (x : Int) : withSign (decide (x < 0)) x.natAbs = x := by
  unfold withSign
  split_ifs with hneg
  all_goals
    rw [decide_eq_true_eq] at hneg
    omega

theorem withSign_not (x : Bool) (n : Nat) : withSign (!x) n = -withSign x n := by
  cases x <;> simp [withSign]

theorem mul_withSign (d : Nat) (x : Bool) (n : Nat) : (d : Int) * withSign x n = withSign x (d * n) := by
  cases x <;> simp [withSign]

theorem withSign_mul (x y : Bool) (m n : Nat) : withSign x m * withSign y n = withSign (x != y) (m * n) := by
  cases x <;> cases y <;> simp [withSign]

theorem withSign_natAbs (x : Bool) (n : Nat) : (withSign x n).natAbs = n := by
  cases x <;> simp [withSign]

theorem withSign_lt_zero {x : Bool} {n : Nat} (hn : n ≠ 0) : decide (withSign x n < 0) = x := by
  cases x
  · simp [withSign]
  · simp [withSign]
    omega

theorem dist_withSign (x : Bool) (m n : Nat) : Safety.dist (withSign x m) (withSign x n) = Safety.dist m n := by
  cases x
  · simp [withSign, Safety.dist]
  · simp [withSign, Safety.dist]
    omega

/-- Values of opposite signs are as far apart as both are from zero. -/
theorem dist_withSign_of_ne {x y : Bool} (h : x ≠ y) (m n : Nat) : Safety.dist (withSign x m) (withSign y n) = m + n := by
  cases x <;> cases y <;> simp [withSign, Safety.dist] at h ⊢ <;> omega

/-! ## The nearest signed result -/

/-- `v` is the binary32 result for the exact value `num / den` units: an infinity from half a step beyond the largest
finite value on, and below it a nearest finite value, of even significand where another one is as near
(41_float.md R130). -/
def NearestResult (num : Int) (den : Nat) (v : Word) : Prop :=
  (den * ((2 ^ 25 - 1) * 2 ^ 253) ≤ 2 * num.natAbs → floatClass v = .inf (decide (num < 0))) ∧
    (2 * num.natAbs < den * ((2 ^ 25 - 1) * 2 ^ 253) →
      ∃ x m, floatClass v = .fin x m ∧
        ∀ (q : Word) (y : Bool) (n : Nat), floatClass q = .fin y n →
          Safety.dist num (den * withSign x m) ≤ Safety.dist num (den * withSign y n) ∧
          (withSign y n ≠ withSign x m →
            Safety.dist num (den * withSign x m) = Safety.dist num (den * withSign y n) → v.getLsbD 0 = false))

/-- The sign keeps the rounding nearest: a value of the other sign is no nearer than zero is. -/
theorem withSign_roundMag_nearest (x : Bool) (num : Nat) {den : Nat} (hden : 0 < den) (hfin : roundMag num den < infBits)
    (y : Bool) (p : Nat) :
    Safety.dist (withSign x num) (den * withSign x (magOf (roundMag num den))) ≤
        Safety.dist (withSign x num) (den * withSign y (magOf p)) ∧
      (withSign y (magOf p) ≠ withSign x (magOf (roundMag num den)) →
        Safety.dist (withSign x num) (den * withSign x (magOf (roundMag num den))) =
          Safety.dist (withSign x num) (den * withSign y (magOf p)) →
        roundMag num den % 2 = 0) := by
  simp only [mul_withSign, dist_withSign]
  obtain rfl | hxy := eq_or_ne x y
  · rw [dist_withSign]
    obtain ⟨hle, htie⟩ := roundMag_nearest num hden hfin p
    exact ⟨hle, fun hne => htie (by rintro rfl; exact hne rfl)⟩
  · obtain ⟨hle, htie⟩ := roundMag_nearest num hden hfin 0
    have hzero : Safety.dist num (den * magOf 0 : Nat) = num := by simp [Safety.dist, magOf]
    rw [dist_withSign_of_ne hxy]
    rw [hzero] at hle htie
    refine ⟨by omega, fun hne heq => htie ?_ (by omega)⟩
    intro hround
    have hp : den * magOf p = 0 := by omega
    rw [← hround, (Nat.mul_eq_zero.mp hp).resolve_left hden.ne'] at hne
    simp [withSign, magOf] at hne

theorem floatPack_roundMag_nearestResult (x : Bool) (num : Nat) {den : Nat} (hden : 0 < den) :
    NearestResult (withSign x num) den (floatPack x (roundMag num den)) := by
  unfold NearestResult
  rw [withSign_natAbs, ← roundMag_eq_infBits_iff num hden, ← Nat.not_le, ← roundMag_eq_infBits_iff num hden]
  refine ⟨fun hinf => ?_, fun hinf => ?_⟩
  · have hnum : num ≠ 0 := by
      rintro rfl
      rw [roundMag_zero] at hinf
      exact absurd hinf (by decide)
    rw [hinf, floatClass_floatPack_inf, withSign_lt_zero hnum]
  · have hfin := (roundMag_le_infBits num hden).lt_of_ne hinf
    refine ⟨x, _, floatClass_floatPack_fin x hfin, fun q y n hq => ?_⟩
    obtain ⟨-, rfl⟩ := floatClass_eq_fin hq
    obtain ⟨hle, htie⟩ := withSign_roundMag_nearest x num hden hfin y (floatBits q)
    refine ⟨hle, fun hne heq => ?_⟩
    rw [floatPack_getLsbD_zero, htie hne heq]
    rfl

/-! ## Each operation, an equation per case of its operands -/

section Cases

variable {a b : Word} {x y : Bool} {m n : Nat}

theorem floatAdd_nan (h : floatClass a = .nan ∨ floatClass b = .nan) : floatAdd a b = .anyNan := by
  unfold floatAdd
  obtain h | h := h
  · rw [h]
  · rw [h]
    cases floatClass a <;> rfl

theorem floatAdd_inf_inf (ha : floatClass a = .inf x) (hb : floatClass b = .inf y) :
    floatAdd a b = if x = y then .value (floatPack x infBits) else .anyNan := by
  rw [floatAdd, ha, hb]

theorem floatAdd_inf_fin (ha : floatClass a = .inf x) (hb : floatClass b = .fin y n) :
    floatAdd a b = .value (floatPack x infBits) := by
  rw [floatAdd, ha, hb]

theorem floatAdd_fin_inf (ha : floatClass a = .fin x m) (hb : floatClass b = .inf y) :
    floatAdd a b = .value (floatPack y infBits) := by
  rw [floatAdd, ha, hb]

theorem floatAdd_fin_zero (ha : floatClass a = .fin x m) (hb : floatClass b = .fin y n)
    (hsum : withSign x m + withSign y n = 0) : floatAdd a b = .value (floatPack (x && y) 0) := by
  rw [floatAdd, ha, hb]
  exact if_pos hsum

/-- A finite sum is the exact one rounded, an exact zero with the sign of R131. -/
theorem floatAdd_fin (ha : floatClass a = .fin x m) (hb : floatClass b = .fin y n) :
    ∃ z k, withSign x m + withSign y n = withSign z k ∧ floatAdd a b = .value (floatPack z (roundMag k 1)) := by
  by_cases hsum : withSign x m + withSign y n = 0
  · refine ⟨x && y, 0, hsum.trans (by simp [withSign]), ?_⟩
    rw [floatAdd_fin_zero ha hb hsum, roundMag_zero]
  · refine ⟨_, _, (withSign_natAbs_self _).symm, ?_⟩
    rw [floatAdd, ha, hb]
    exact if_neg hsum

theorem floatMul_nan (h : floatClass a = .nan ∨ floatClass b = .nan) : floatMul a b = .anyNan := by
  unfold floatMul
  obtain h | h := h
  · rw [h]
  · rw [h]
    cases floatClass a <;> rfl

theorem floatMul_inf_inf (ha : floatClass a = .inf x) (hb : floatClass b = .inf y) :
    floatMul a b = .value (floatPack (x != y) infBits) := by
  rw [floatMul, ha, hb]

theorem floatMul_inf_fin (ha : floatClass a = .inf x) (hb : floatClass b = .fin y n) :
    floatMul a b = if n = 0 then .anyNan else .value (floatPack (x != y) infBits) := by
  rw [floatMul, ha, hb]

theorem floatMul_fin_inf (ha : floatClass a = .fin x m) (hb : floatClass b = .inf y) :
    floatMul a b = if m = 0 then .anyNan else .value (floatPack (x != y) infBits) := by
  rw [floatMul, ha, hb]

theorem floatMul_fin (ha : floatClass a = .fin x m) (hb : floatClass b = .fin y n) :
    floatMul a b = .value (floatPack (x != y) (roundMag (m * n) (2 ^ 149))) := by
  rw [floatMul, ha, hb]

theorem floatDiv_nan (h : floatClass a = .nan ∨ floatClass b = .nan) : floatDiv a b = .anyNan := by
  unfold floatDiv
  obtain h | h := h
  · rw [h]
  · rw [h]
    cases floatClass a <;> rfl

theorem floatDiv_inf_inf (ha : floatClass a = .inf x) (hb : floatClass b = .inf y) : floatDiv a b = .anyNan := by
  rw [floatDiv, ha, hb]

theorem floatDiv_inf_fin (ha : floatClass a = .inf x) (hb : floatClass b = .fin y n) :
    floatDiv a b = .value (floatPack (x != y) infBits) := by
  rw [floatDiv, ha, hb]

theorem floatDiv_fin_inf (ha : floatClass a = .fin x m) (hb : floatClass b = .inf y) :
    floatDiv a b = .value (floatPack (x != y) 0) := by
  rw [floatDiv, ha, hb]

theorem floatDiv_fin_fin (ha : floatClass a = .fin x m) (hb : floatClass b = .fin y n) :
    floatDiv a b =
      if n = 0 then (if m = 0 then .anyNan else .value (floatPack (x != y) infBits))
      else .value (floatPack (x != y) (roundMag (m * 2 ^ 149) n)) := by
  rw [floatDiv, ha, hb]

theorem floatDiv_fin_zero (ha : floatClass a = .fin x m) (hb : floatClass b = .fin y 0) :
    floatDiv a b = if m = 0 then .anyNan else .value (floatPack (x != y) infBits) := by
  rw [floatDiv_fin_fin ha hb, if_pos rfl]

theorem floatDiv_fin (ha : floatClass a = .fin x m) (hb : floatClass b = .fin y n) (hn : n ≠ 0) :
    floatDiv a b = .value (floatPack (x != y) (roundMag (m * 2 ^ 149) n)) := by
  rw [floatDiv_fin_fin ha hb, if_neg hn]

end Cases

/-! ## What an operation answers -/

/-- `c` is a NaN left open, or a pattern of the sign `neg`. -/
def Computed.NanOrSign (neg : Bool) (c : Computed) : Prop :=
  c = .anyNan ∨ ∃ v, c = .value v ∧ floatSign v = neg

theorem nanOrSign_floatPack (neg : Bool) {p : Nat} (hp : p ≤ infBits) :
    (Computed.value (floatPack neg p)).NanOrSign neg :=
  .inr ⟨_, rfl, floatSign_floatPack neg (hp.trans_lt (by decide))⟩

theorem nanOrSign_ite (neg : Bool) (q : Prop) [Decidable q] :
    (if q then Computed.anyNan else .value (floatPack neg infBits)).NanOrSign neg := by
  split
  · exact .inl rfl
  · exact nanOrSign_floatPack neg (Nat.le_refl _)

theorem floatAdd_ne_anyWord (a b : Word) : floatAdd a b ≠ .anyWord := by
  cases ha : floatClass a with
  | nan => simp [floatAdd_nan (.inl ha)]
  | inf x =>
    cases hb : floatClass b with
    | nan => simp [floatAdd_nan (.inr hb)]
    | inf y =>
      rw [floatAdd_inf_inf ha hb]
      split <;> simp
    | fin y n => simp [floatAdd_inf_fin ha hb]
  | fin x m =>
    cases hb : floatClass b with
    | nan => simp [floatAdd_nan (.inr hb)]
    | inf y => simp [floatAdd_fin_inf ha hb]
    | fin y n =>
      obtain ⟨z, k, -, heq⟩ := floatAdd_fin ha hb
      simp [heq]

/-- A product that is no NaN has the exclusive or of the operands' signs (41_float.md R133). -/
theorem floatMul_nanOrSign (a b : Word) : (floatMul a b).NanOrSign (floatSign a != floatSign b) := by
  cases ha : floatClass a with
  | nan => exact .inl (floatMul_nan (.inl ha))
  | inf x =>
    cases hb : floatClass b with
    | nan => exact .inl (floatMul_nan (.inr hb))
    | inf y =>
      rw [floatMul_inf_inf ha hb, floatClass_eq_inf ha, floatClass_eq_inf hb]
      exact nanOrSign_floatPack _ (Nat.le_refl _)
    | fin y n =>
      rw [floatMul_inf_fin ha hb, floatClass_eq_inf ha, (floatClass_eq_fin hb).1]
      exact nanOrSign_ite ..
  | fin x m =>
    cases hb : floatClass b with
    | nan => exact .inl (floatMul_nan (.inr hb))
    | inf y =>
      rw [floatMul_fin_inf ha hb, (floatClass_eq_fin ha).1, floatClass_eq_inf hb]
      exact nanOrSign_ite ..
    | fin y n =>
      rw [floatMul_fin ha hb, (floatClass_eq_fin ha).1, (floatClass_eq_fin hb).1]
      exact nanOrSign_floatPack _ (roundMag_le_infBits _ (Nat.two_pow_pos 149))

/-- A quotient that is no NaN has the exclusive or of the operands' signs (41_float.md R134). -/
theorem floatDiv_nanOrSign (a b : Word) : (floatDiv a b).NanOrSign (floatSign a != floatSign b) := by
  cases ha : floatClass a with
  | nan => exact .inl (floatDiv_nan (.inl ha))
  | inf x =>
    cases hb : floatClass b with
    | nan => exact .inl (floatDiv_nan (.inr hb))
    | inf y => exact .inl (floatDiv_inf_inf ha hb)
    | fin y n =>
      rw [floatDiv_inf_fin ha hb, floatClass_eq_inf ha, (floatClass_eq_fin hb).1]
      exact nanOrSign_floatPack _ (Nat.le_refl _)
  | fin x m =>
    cases hb : floatClass b with
    | nan => exact .inl (floatDiv_nan (.inr hb))
    | inf y =>
      rw [floatDiv_fin_inf ha hb, (floatClass_eq_fin ha).1, floatClass_eq_inf hb]
      exact nanOrSign_floatPack _ (Nat.zero_le _)
    | fin y n =>
      rw [(floatClass_eq_fin ha).1, (floatClass_eq_fin hb).1]
      obtain rfl | hn := eq_or_ne n 0
      · rw [floatDiv_fin_zero ha hb]
        exact nanOrSign_ite ..
      · rw [floatDiv_fin ha hb hn]
        exact nanOrSign_floatPack _ (roundMag_le_infBits _ (Nat.pos_of_ne_zero hn))

theorem Computed.NanOrSign.ne_anyWord {neg : Bool} {c : Computed} (h : c.NanOrSign neg) : c ≠ .anyWord := by
  obtain rfl | ⟨v, rfl, -⟩ := h <;> simp

/-! ## What a float handler writes -/

/-- The pattern `w` is the computed value, or some NaN where that is open (41_float.md R135). -/
def Computed.Written (c : Computed) (w : Word) : Prop :=
  (∃ v, c = .value v ∧ w = v) ∨ (c = .anyNan ∧ floatClass w = .nan)

section Written

variable {c : Computed} {w : Word}

theorem Computed.Written.nan (h : c.Written w) (hc : c = .anyNan) : floatClass w = .nan := by
  obtain ⟨v, rfl, -⟩ | ⟨-, hw⟩ := h
  · cases hc
  · exact hw

theorem Computed.Written.eq {v : Word} (h : c.Written w) (hc : c = .value v) : w = v := by
  obtain ⟨u, rfl, rfl⟩ | ⟨rfl, -⟩ := h
  · exact Computed.value.inj hc
  · cases hc

theorem Computed.Written.inf {neg : Bool} (h : c.Written w) (hc : c = .value (floatPack neg infBits)) :
    floatClass w = .inf neg := by
  rw [h.eq hc, floatClass_floatPack_inf]

theorem Computed.Written.zero {neg : Bool} (h : c.Written w) (hc : c = .value (floatPack neg 0)) :
    floatClass w = .fin neg 0 := by
  rw [h.eq hc, floatClass_floatPack_zero]

theorem Computed.Written.nan_or_inf {q : Prop} [Decidable q] {neg : Bool} (h : c.Written w)
    (hc : c = if q then .anyNan else .value (floatPack neg infBits)) :
    floatClass w = if q then .nan else .inf neg := by
  split_ifs with hq
  · exact h.nan (hc.trans (if_pos hq))
  · exact h.inf (hc.trans (if_neg hq))

theorem Computed.Written.sign {neg : Bool} (h : c.Written w) (hc : c.NanOrSign neg) (hw : floatClass w ≠ .nan) :
    floatSign w = neg := by
  obtain hnan | ⟨v, hv, hsign⟩ := hc
  · exact absurd (h.nan hnan) hw
  · rw [h.eq hv, hsign]

end Written

theorem setComputed_written (s : State) (d : Fin 32) {c : Computed} (hc : c ≠ .anyWord) :
    c.Written ((s.setComputed d c).reg d) := by
  rw [State.setComputed_reg_same]
  cases c with
  | value v => exact .inl ⟨v, rfl, rfl⟩
  | anyWord => exact absurd rfl hc
  | anyNan => exact .inr ⟨rfl, nanOfDraw_isNan _⟩

section Forms

variable {s : State} {rd ra rb : Byte} {d a b : Fin 32} (hd : Names rd d) (ha : Names ra a) (hb : Names rb b)

include hd ha hb

theorem floatRegs_written {f : Word → Word → Computed} (hf : f (s.reg a) (s.reg b) ≠ .anyWord) :
    ∃ t, floatRegs f rd ra rb s = .next t ∧ SameRegsBut d s t ∧ SameButRegs s t ∧
      (f (s.reg a) (s.reg b)).Written (t.reg d) := by
  rw [floatRegs, withReg_of_names hd, withReg_of_names ha, withReg_of_names hb]
  exact ⟨_, rfl, setComputed_sameRegsBut s d _, setComputed_sameButRegs s d _, setComputed_written s d hf⟩

/-- An operation that rounds its exact value writes a nearest result. -/
theorem floatRegs_nearest {f : Word → Word → Computed} {x : Bool} {n den : Nat} {num : Int} (hnum : num = withSign x n)
    (hden : 0 < den) (hf : f (s.reg a) (s.reg b) = .value (floatPack x (roundMag n den))) :
    ∃ t, floatRegs f rd ra rb s = .next t ∧ NearestResult num den (t.reg d) := by
  obtain ⟨t, ht, -, -, hw⟩ := floatRegs_written hd ha hb (s := s) (f := f) (by simp [hf])
  refine ⟨t, ht, ?_⟩
  rw [hw.eq hf, hnum]
  exact floatPack_roundMag_nearestResult x n hden

/-- Addition and subtraction are one sum, the second operand's sign flipped for subtraction (41_float.md R132). -/
theorem exec_floatSum : ∀ p ∈ [(Instr.fadd rd ra rb, false), (Instr.fsub rd ra rb, true)],
    ∃ t v, exec p.1 s = .next t ∧ floatClass v = (floatClass (s.reg b)).flipIf p.2 ∧
      (floatAdd (s.reg a) v).Written (t.reg d) := by
  intro p hp
  simp only [List.mem_cons, List.not_mem_nil, or_false] at hp
  obtain rfl | rfl := hp
  · obtain ⟨t, ht, -, -, hw⟩ := floatRegs_written hd ha hb (floatAdd_ne_anyWord (s.reg a) (s.reg b))
    exact ⟨t, s.reg b, ht, (FloatClass.flipIf_false _).symm, hw⟩
  · obtain ⟨t, ht, -, -, hw⟩ := floatRegs_written hd ha hb (f := floatSub) (floatAdd_ne_anyWord (s.reg a) _)
    exact ⟨t, floatNeg (s.reg b), ht, floatClass_floatNeg _, hw⟩

end Forms

end Sys2Proof.Machine

/-! The obligations of 41_float.md, each read off the laws above. -/

namespace Sys2Proof.Proofs

open Sys2Proof.Machine Sys2Proof.Safety

/-- Settles O17: from half a step beyond the largest finite value on the rounding answers infinity, and below that a
nearest magnitude. -/
theorem roundingIsNearestEven : Obligations.RoundingIsNearestEven := by
  refine fun num den hden => ⟨(roundMag_eq_infBits_iff num hden).mpr, fun hlt => ?_⟩
  have hfin : roundMag num den < infBits :=
    (roundMag_le_infBits num hden).lt_of_ne (mt (roundMag_eq_infBits_iff num hden).mp (Nat.not_le.mpr hlt))
  refine ⟨hfin, fun p _ => ?_⟩
  simpa only [Int.natCast_mul] using roundMag_nearest num hden hfin p

/-- Settles O18: each of the four operations rounds its exact value, and packs it with its sign. -/
theorem floatResultIsNearest : Obligations.FloatResultIsNearest := by
  intro s rd ra rb d a b sa sb ma mb hd ha hb hca hcb p hp hden
  simp only [List.mem_cons, List.not_mem_nil, or_false] at hp
  obtain rfl | rfl | rfl | rfl := hp
  · obtain ⟨x, n, hsum, hval⟩ := floatAdd_fin hca hcb
    exact floatRegs_nearest hd ha hb hsum hden hval
  · have hneg : floatClass (floatNeg (s.reg b)) = .fin (!sb) mb := by
      rw [floatClass_floatNeg, hcb, FloatClass.flipIf, Bool.xor_true]
    obtain ⟨x, n, hsum, hval⟩ := floatAdd_fin hca hneg
    rw [withSign_not, ← Int.sub_eq_add_neg] at hsum
    exact floatRegs_nearest hd ha hb (f := floatSub) hsum hden hval
  · exact floatRegs_nearest hd ha hb (withSign_mul ..) hden (floatMul_fin hca hcb)
  · exact floatRegs_nearest hd ha hb rfl hden (floatDiv_fin hca hcb (Nat.ne_of_gt hden))

/-- Settles O19: each clause is the equation of the sum for its operands, the second one's sign flipped for `FSUB`. -/
theorem floatSumSpecialResults : Obligations.FloatSumSpecialResults := by
  intro s rd ra rb d a b hd ha hb p hp
  obtain ⟨t, v, ht, hv, hw⟩ := exec_floatSum hd ha hb p hp
  refine ⟨t, ht, fun hnan => ?_, fun x y hx hy => ?_, fun x y n hx hy => ?_, fun x m y hx hy => ?_,
    fun x m y n hx hy hsum => ?_⟩
  · exact hw.nan (floatAdd_nan (hnan.imp_right fun h => by rw [hv, h, FloatClass.flipIf]))
  all_goals rw [hy] at hv
  · have hsum := floatAdd_inf_inf hx hv
    split_ifs with hxy
    · exact hw.inf (hsum.trans (if_pos hxy))
    · exact hw.nan (hsum.trans (if_neg hxy))
  · exact hw.inf (floatAdd_inf_fin hx hv)
  · exact hw.inf (floatAdd_fin_inf hx hv)
  · exact hw.zero (floatAdd_fin_zero hx hv hsum)

/-- Settles O20: each clause is the equation of the product or the quotient for its operands, and the sign that of every
answer but a NaN. -/
theorem floatProductSpecialResults : Obligations.FloatProductSpecialResults := by
  intro s rd ra rb d a b hd ha hb
  have hmul := floatMul_nanOrSign (s.reg a) (s.reg b)
  have hdiv := floatDiv_nanOrSign (s.reg a) (s.reg b)
  constructor
  · obtain ⟨t, ht, -, -, hw⟩ := floatRegs_written hd ha hb hmul.ne_anyWord
    refine ⟨t, ht, fun hnan => hw.nan (floatMul_nan hnan), fun x y hx hy => hw.inf (floatMul_inf_inf hx hy),
      fun x y n hx hy => hw.nan_or_inf (floatMul_inf_fin hx hy), fun x m y hx hy => hw.nan_or_inf (floatMul_fin_inf hx hy),
      fun x m y n hx hy hzero => ?_, hw.sign hmul⟩
    have hprod := floatMul_fin hx hy
    rw [hzero, roundMag_zero] at hprod
    exact hw.zero hprod
  · obtain ⟨t, ht, -, -, hw⟩ := floatRegs_written hd ha hb hdiv.ne_anyWord
    refine ⟨t, ht, fun hnan => hw.nan (floatDiv_nan hnan), fun x y hx hy => hw.nan (floatDiv_inf_inf hx hy),
      fun x y n hx hy => hw.inf (floatDiv_inf_fin hx hy), fun x m y hx hy => hw.zero (floatDiv_fin_inf hx hy),
      fun x m y hx hy => hw.nan_or_inf (floatDiv_fin_zero hx hy), fun x y n hx hy hn => ?_, hw.sign hdiv⟩
    have hquot := floatDiv_fin hx hy hn
    rw [Nat.zero_mul, roundMag_zero] at hquot
    exact hw.zero hquot

/-- Settles O16: all four are `floatRegs` of an operation that answers a value or a NaN. -/
theorem floatArithmeticCompletes : Obligations.FloatArithmeticCompletes := by
  intro s rd ra rb d a b hd ha hb p hp
  simp only [List.mem_cons, List.not_mem_nil, or_false] at hp
  obtain rfl | rfl | rfl | rfl := hp
  · exact floatRegs_written hd ha hb (floatAdd_ne_anyWord _ _)
  · exact floatRegs_written hd ha hb (f := floatSub) (floatAdd_ne_anyWord _ _)
  · exact floatRegs_written hd ha hb (floatMul_nanOrSign ..).ne_anyWord
  · exact floatRegs_written hd ha hb (floatDiv_nanOrSign ..).ne_anyWord

end Sys2Proof.Proofs
end

-- Proofs of the rules of 42_set_compare.md: set-immediate and the compares.
section
/-! PROOFS. A compare writes the flags of the order of two integers: its operands, or their places in the binary32 order,
where a NaN has none and the flags are `FCMP_UNORDERED`. -/

namespace Sys2Proof.Machine

open Sys2Proof.Safety

/-! ## The 16-bit immediate -/

theorem imm16_eq_ofNat (imm : BitVec 16) : imm16 imm = BitVec.ofNat 32 imm.toNat :=
  (BitVec.ofNat_toNat ..).symm

@[simp] theorem imm16_toNat (imm : BitVec 16) : (imm16 imm).toNat = imm.toNat :=
  BitVec.toNat_setWidth_of_le (by decide)

/-! ## The flags of an order -/

/-- Each flag is one relation of the two operands (42_set_compare.md R141). -/
theorem flagsOfOrder_iff (l r : Int) :
    ((flagsOfOrder l r).gt = true ↔ l > r) ∧ ((flagsOfOrder l r).lt = true ↔ l < r) ∧
      ((flagsOfOrder l r).eq = true ↔ l = r) :=
  ⟨decide_eq_true_iff, decide_eq_true_iff, decide_eq_true_iff⟩

theorem flagsOfOrder_of_gt {l r : Int} (h : r < l) : flagsOfOrder l r = ⟨true, false, false⟩ := by
  simp [flagsOfOrder, h, h.le, h.ne']

theorem flagsOfOrder_of_lt {l r : Int} (h : l < r) : flagsOfOrder l r = ⟨false, true, false⟩ := by
  simp [flagsOfOrder, h, h.le, h.ne]

theorem flagsOfOrder_self (l : Int) : flagsOfOrder l l = ⟨false, false, true⟩ := by
  simp [flagsOfOrder]

/-- Integer order is total, so exactly one flag is set (42_set_compare.md R145). -/
theorem flagsOfOrder_trichotomy (l r : Int) :
    flagsOfOrder l r = ⟨true, false, false⟩ ∨ flagsOfOrder l r = ⟨false, true, false⟩ ∨
      flagsOfOrder l r = ⟨false, false, true⟩ := by
  obtain hlt | rfl | hgt := lt_trichotomy l r
  · exact .inr (.inl (flagsOfOrder_of_lt hlt))
  · exact .inr (.inr (flagsOfOrder_self l))
  · exact .inl (flagsOfOrder_of_gt hgt)

/-! ## The order of signed magnitudes -/

section Signed

variable {m n : Nat} (x y : Bool)

theorem withSign_lt (h : m < n) : withSign x m < n := by
  unfold withSign
  split <;> omega

theorem neg_lt_withSign (h : m < n) : -(n : Int) < withSign x m := by
  unfold withSign
  split <;> omega

/-- Against a greater magnitude, that one's sign decides. -/
theorem flagsOfOrder_withSign_of_lt (h : m < n) : flagsOfOrder (withSign x m) (withSign y n) = ⟨y, !y, false⟩ := by
  cases y
  · exact flagsOfOrder_of_lt (withSign_lt x h)
  · exact flagsOfOrder_of_gt (neg_lt_withSign x h)

theorem flagsOfOrder_withSign_of_gt (h : n < m) : flagsOfOrder (withSign x m) (withSign y n) = ⟨!x, x, false⟩ := by
  cases x
  · exact flagsOfOrder_of_gt (withSign_lt y h)
  · exact flagsOfOrder_of_lt (neg_lt_withSign y h)

theorem flagsOfOrder_withSign_self (h : 0 < n) :
    flagsOfOrder (withSign x n) (withSign y n) = ⟨!x && y, x && !y, x == y⟩ := by
  have hneg : withSign true n < withSign false n := (neg_lt_withSign false h).trans (withSign_lt false h)
  cases x <;> cases y
  · exact flagsOfOrder_self _
  · exact flagsOfOrder_of_gt hneg
  · exact flagsOfOrder_of_lt hneg
  · exact flagsOfOrder_self _

end Signed

/-! ## The binary32 order -/

/-- In the order an infinity stands where the magnitude of its bits would (42_set_compare.md R143). -/
theorem floatKey_inf (x : Bool) : floatKey (.inf x) = some (withSign x (magOf infBits)) := by
  rw [show magOf infBits = 2 ^ 24 * 2 ^ 253 by decide]
  rfl

theorem floatKey_fin (x : Bool) (m : Nat) : floatKey (.fin x m) = some (withSign x m) := rfl

theorem exists_floatKey {c : FloatClass} (h : c ≠ .nan) : ∃ k, floatKey c = some k := by
  cases c with
  | nan => exact absurd rfl h
  | inf x => exact ⟨_, rfl⟩
  | fin x m => exact ⟨_, rfl⟩

/-- An infinity is beyond every finite value. -/
theorem mag_lt_of_floatClass_fin {v : Word} {x : Bool} {m : Nat} (h : floatClass v = .fin x m) : m < magOf infBits := by
  rw [floatClass_eq] at h
  split_ifs at h with hfin
  obtain ⟨-, rfl⟩ := FloatClass.fin.inj h
  exact magOf_strictMono hfin

/-! ## The flags of a float compare, an equation per case of its operands -/

section Cases

variable {c : Config} {l r : Word} {x y : Bool} {m n : Nat}

theorem floatFlags_of_floatKey {i j : Int} (hl : floatKey (floatClass l) = some i)
    (hr : floatKey (floatClass r) = some j) : floatFlags c l r = flagsOfOrder i j := by
  rw [floatFlags, hl, hr]

theorem floatFlags_nan (h : floatClass l = .nan ∨ floatClass r = .nan) : floatFlags c l r = c.fcmpUnordered := by
  unfold floatFlags
  obtain h | h := h
  · rw [h]
    rfl
  · rw [h]
    cases floatKey (floatClass l) <;> rfl

theorem floatFlags_fin_fin (hl : floatClass l = .fin x m) (hr : floatClass r = .fin y n) :
    floatFlags c l r = flagsOfOrder (withSign x m) (withSign y n) := by
  apply floatFlags_of_floatKey
  · rw [hl, floatKey_fin]
  · rw [hr, floatKey_fin]

theorem floatFlags_inf_fin (hl : floatClass l = .inf x) (hr : floatClass r = .fin y n) :
    floatFlags c l r = ⟨!x, x, false⟩ := by
  rw [← flagsOfOrder_withSign_of_gt x y (mag_lt_of_floatClass_fin hr)]
  apply floatFlags_of_floatKey
  · rw [hl, floatKey_inf]
  · rw [hr, floatKey_fin]

theorem floatFlags_fin_inf (hl : floatClass l = .fin x m) (hr : floatClass r = .inf y) :
    floatFlags c l r = ⟨y, !y, false⟩ := by
  rw [← flagsOfOrder_withSign_of_lt x y (mag_lt_of_floatClass_fin hl)]
  apply floatFlags_of_floatKey
  · rw [hl, floatKey_fin]
  · rw [hr, floatKey_inf]

theorem floatFlags_inf_inf (hl : floatClass l = .inf x) (hr : floatClass r = .inf y) :
    floatFlags c l r = ⟨!x && y, x && !y, x == y⟩ := by
  rw [← flagsOfOrder_withSign_self x y (n := magOf infBits) (by decide)]
  apply floatFlags_of_floatKey
  · rw [hl, floatKey_inf]
  · rw [hr, floatKey_inf]

/-- Ordered operands have places in the order, so exactly one flag is set (42_set_compare.md R145). -/
theorem floatFlags_trichotomy (hl : floatClass l ≠ .nan) (hr : floatClass r ≠ .nan) :
    floatFlags c l r = ⟨true, false, false⟩ ∨ floatFlags c l r = ⟨false, true, false⟩ ∨
      floatFlags c l r = ⟨false, false, true⟩ := by
  obtain ⟨i, hi⟩ := exists_floatKey hl
  obtain ⟨j, hj⟩ := exists_floatKey hr
  rw [floatFlags_of_floatKey hi hj]
  exact flagsOfOrder_trichotomy i j

end Cases

/-! ## The handlers under valid register bytes -/

/-- Writing the flags changes nothing else (42_set_compare.md R141). -/
theorem setFlags_frame (s : State) (f : Flags) :
    SameRegs s (s.setFlags f) ∧ (s.setFlags f).pc = s.pc ∧ (s.setFlags f).lr = s.lr ∧
      (s.setFlags f).status = s.status ∧ (s.setFlags f).out = s.out ∧ SameBytes s (s.setFlags f) ∧
      SameLoad s (s.setFlags f) :=
  ⟨fun _ => rfl, rfl, rfl, rfl, rfl, fun _ => rfl, rfl, rfl⟩

theorem execSeti_writesReg {rd : Byte} {d : Fin 32} (hd : Names rd d) (imm : BitVec 16) (s : State) :
    ∃ t, execSeti rd imm s = .next t ∧ WritesReg d (BitVec.ofNat 32 imm.toNat) s t := by
  rw [execSeti, withReg_of_names hd, imm16_eq_ofNat]
  exact ⟨_, rfl, setReg_writesReg s d _⟩

section Forms

variable {ra rb : Byte} {a b : Fin 32} (ha : Names ra a)

include ha

theorem compareRegs_of_names (hb : Names rb b) (f : Word → Word → Flags) (s : State) :
    compareRegs f ra rb s = .next (s.setFlags (f (s.reg a) (s.reg b))) := by
  rw [compareRegs, withReg_of_names ha, withReg_of_names hb]

/-- `CMPI` is unsigned on both sides (42_set_compare.md R144). -/
theorem execCmpi_of_names (imm : BitVec 16) (s : State) :
    execCmpi ra imm s = .next (s.setFlags (flagsOfOrder (s.reg a).toNat imm.toNat)) := by
  rw [execCmpi, withReg_of_names ha, intFlags, imm16_toNat]
  rfl

/-- Both integer compares write the flags of the order of their operands, read as numbers or signed numbers
(42_set_compare.md R142, R144). -/
theorem exec_intCompare (hb : Names rb b) (imm : BitVec 16) (s : State) :
    ∀ p ∈ [(Instr.cmp ra rb,
          if s.cfg.cmpSigned then ((s.reg a).toInt, (s.reg b).toInt)
          else (((s.reg a).toNat : Int), ((s.reg b).toNat : Int))),
        (Instr.cmpi ra imm, (((s.reg a).toNat : Int), (imm.toNat : Int)))],
      exec p.1 s = .next (s.setFlags (flagsOfOrder p.2.1 p.2.2)) := by
  intro p hp
  simp only [List.mem_cons, List.not_mem_nil, or_false] at hp
  obtain rfl | rfl := hp
  · refine (compareRegs_of_names ha hb (intFlags s.cfg.cmpSigned) s).trans ?_
    unfold intFlags
    cases s.cfg.cmpSigned <;> rfl
  · exact execCmpi_of_names ha imm s

end Forms

end Sys2Proof.Machine

/-! The obligations of 42_set_compare.md, each read off the laws above. -/

namespace Sys2Proof.Proofs

open Sys2Proof.Machine Sys2Proof.Safety

/-- Settles O22: both write the flags of the order of their operands. -/
theorem integerCompareResult : Obligations.IntegerCompareResult := by
  intro s ra rb imm a b ha hb p hp
  obtain ⟨hgt, hlt, heq⟩ := flagsOfOrder_iff p.2.1 p.2.2
  exact ⟨_, exec_intCompare ha hb imm s p hp, hgt, hlt, heq, setFlags_frame s _⟩

/-- Settles O23: each clause is the equation of the float flags for its operands. -/
theorem floatCompareResult : Obligations.FloatCompareResult := by
  intro s ra rb a b ha hb
  obtain ⟨hregs, hpc, hlr, hstatus, hout, hbytes, hload⟩ := setFlags_frame s (floatFlags s.cfg (s.reg a) (s.reg b))
  refine ⟨_, compareRegs_of_names ha hb (floatFlags s.cfg) s, hregs, hpc, hlr, hstatus, hout, hbytes, hload,
    floatFlags_nan, fun x m y n hx hy => ?_, fun x y n => floatFlags_inf_fin, fun x m y => floatFlags_fin_inf,
    fun x y => floatFlags_inf_inf⟩
  rw [State.setFlags_flags, floatFlags_fin_fin hx hy]
  exact flagsOfOrder_iff ..

/-- Settles O24: the operands of a compare are in an order, unless one is a NaN, and a load keeps the launch flags. -/
theorem compareTrichotomy : Obligations.CompareTrichotomy := by
  refine ⟨fun s t ra rb imm a b ha hb => ?_, fun c l f s image h => ?_⟩
  · have hcmp := exec_intCompare ha hb imm s _ (.head _)
    have hcmpi := exec_intCompare ha hb imm s _ (.tail _ (.head _))
    have hfcmp : exec (.fcmp ra rb) s = _ := compareRegs_of_names ha hb (floatFlags s.cfg) s
    constructor
    · rintro (h | h | ⟨h, hl, hr⟩)
      · obtain rfl := Host.Outcome.next.inj (hcmp.symm.trans h)
        exact flagsOfOrder_trichotomy ..
      · obtain rfl := Host.Outcome.next.inj (hcmpi.symm.trans h)
        exact flagsOfOrder_trichotomy ..
      · obtain rfl := Host.Outcome.next.inj (hfcmp.symm.trans h)
        exact floatFlags_trichotomy hl hr
    · rintro ⟨h, hnan⟩
      obtain rfl := Host.Outcome.next.inj (hfcmp.symm.trans h)
      exact floatFlags_nan hnan
  · rw [loadImage_eq] at h
    split_ifs at h
    obtain rfl := Option.some.inj h
    rfl

/-- Settles O21: the immediate is written with zeros above it. -/
theorem setImmediateResult : Obligations.SetImmediateResult :=
  fun s _ imm _ hd => execSeti_writesReg hd imm s

end Sys2Proof.Proofs
end

-- Proofs of the rules of 43_branch.md: branches and the link register.
section
/-! PROOFS. The branches of a family differ in their condition alone, so each family is one operation: an update of
`pc`, and for a link branch of `lr`, that leaves the rest of the state as it was. -/

namespace Sys2Proof

/-- A sign-extended offset is added as an integer, modulo `2^n` (43_branch.md R151). -/
theorem add_signExtend_eq_ofInt {m n : Nat} (x : BitVec n) (y : BitVec m) :
    x + y.signExtend n = BitVec.ofInt n (x.toNat + y.toInt) := by
  rw [BitVec.ofInt_add, BitVec.ofInt_natCast, BitVec.ofNat_toNat, BitVec.setWidth_eq, BitVec.signExtend]

end Sys2Proof

namespace Sys2Proof.Machine

open Sys2Proof.Safety

/-! ## One operation per family -/

theorem exec_relativeBranch (s : State) (off : BitVec 24) :
    ∀ p ∈ [(Instr.b off, true), (Instr.beq off, s.flags.eq), (Instr.bne off, !s.flags.eq), (Instr.bgt off, s.flags.gt),
        (Instr.blt off, s.flags.lt), (Instr.bge off, s.flags.gt || s.flags.eq),
        (Instr.ble off, s.flags.lt || s.flags.eq)],
      exec p.1 s = .next (branchRel p.2 off s) := by
  intro p hp
  simp only [List.mem_cons, List.not_mem_nil, or_false] at hp
  obtain rfl | rfl | rfl | rfl | rfl | rfl | rfl := hp <;> rfl

theorem exec_linkBranch (s : State) (off : BitVec 24) :
    ∀ p ∈ [(Instr.bl off, true), (Instr.beql off, s.flags.eq), (Instr.bnel off, !s.flags.eq),
        (Instr.bgtl off, s.flags.gt), (Instr.bltl off, s.flags.lt), (Instr.bgel off, s.flags.gt || s.flags.eq),
        (Instr.blel off, s.flags.lt || s.flags.eq)],
      exec p.1 s = .next (linkBranch p.2 off s) := by
  intro p hp
  simp only [List.mem_cons, List.not_mem_nil, or_false] at hp
  obtain rfl | rfl | rfl | rfl | rfl | rfl | rfl := hp <;> rfl

theorem exec_returnBranch (s : State) :
    ∀ p ∈ [(Instr.blr, true), (Instr.beqlr, s.flags.eq), (Instr.bnelr, !s.flags.eq), (Instr.bgtlr, s.flags.gt),
        (Instr.bltlr, s.flags.lt), (Instr.bgelr, s.flags.gt || s.flags.eq),
        (Instr.blelr, s.flags.lt || s.flags.eq)],
      exec p.1 s = .next (returnBranch p.2 s) := by
  intro p hp
  simp only [List.mem_cons, List.not_mem_nil, or_false] at hp
  obtain rfl | rfl | rfl | rfl | rfl | rfl | rfl := hp <;> rfl

/-! ## What a write of `pc` and `lr` leaves unchanged -/

/-- A branch or a move to `lr` writes at most `pc` and `lr` (43_branch.md R151, R159, R167, R176). -/
theorem frame_of_eq_setPcLr {s t : State} {pc lr : Word} (h : t = { s with pc := pc, lr := lr }) :
    SameRegs s t ∧ t.flags = s.flags ∧ t.status = s.status ∧ t.out = s.out ∧ SameBytes s t ∧ SameLoad s t := by
  subst h
  exact ⟨fun _ => rfl, rfl, rfl, rfl, fun _ => rfl, rfl, rfl⟩

/-! ## The moves under a valid register byte -/

section Moves

variable {r : Byte} {i : Fin 32} (hr : Names r i) (s : State)

include hr

theorem exec_mflr_of_names : exec (.mflr r) s = .next (s.setReg i s.lr) :=
  withReg_of_names hr s fun d => .next (s.setReg d s.lr)

theorem exec_mtlr_of_names : exec (.mtlr r) s = .next { s with lr := s.reg i } :=
  withReg_of_names hr s fun j => .next { s with lr := s.reg j }

end Moves

/-! ## The next `pc` -/

/-- The step's increment makes up for the one that a taken branch leaves out (43_branch.md R151; 30_encoding.md R94). -/
theorem relativeTarget_add_one (taken : Bool) (pc : Word) (off : BitVec 24) :
    (if taken then pc + off24 off - 1#32 else pc) + 1#32 =
      if taken then BitVec.ofInt 32 (pc.toNat + off.toInt) else pc + 1#32 := by
  cases taken with
  | false => rfl
  | true => exact (BitVec.sub_add_cancel ..).trans (add_signExtend_eq_ofInt pc off)

/-- A handler that leaves the run running is followed by the increment, which keeps `lr` (30_encoding.md R91, R95). -/
theorem step_pc_lr_of_fetches {s t u : State} {i : Instr} (hs : s.status = .running) (hi : Fetches s i)
    (h : step s = .next t) (hu : exec i s = .next u) (hstatus : u.status = s.status) :
    t.pc = u.pc + 1#32 ∧ t.lr = u.lr := by
  rw [step_of_fetches hs hi, hu, advanceResult_next] at h
  obtain rfl := Host.Outcome.next.inj h
  exact ⟨by rw [State.advance_pc, hstatus, hs]; rfl, State.advance_lr u⟩

end Sys2Proof.Machine

/-! The obligations of 43_branch.md, each read off the laws above. -/

namespace Sys2Proof.Proofs

open Sys2Proof.Machine Sys2Proof.Safety

/-- Settles O25: a relative branch writes `pc` alone. -/
theorem relativeBranchResult : Obligations.RelativeBranchResult := by
  intro s off p hp
  have heq := branchRel_eq p.2 off s
  obtain ⟨hregs, hrest⟩ := frame_of_eq_setPcLr heq
  refine ⟨_, exec_relativeBranch s off p hp, ?_, hregs, by rw [heq], hrest⟩
  rw [heq]
  exact relativeTarget_add_one p.2 s.pc off

/-- Settles O26: a link branch writes `pc` as a relative one does, and `lr`. -/
theorem linkBranchResult : Obligations.LinkBranchResult := by
  intro s off p hp
  have heq := linkBranch_eq p.2 off s
  refine ⟨_, exec_linkBranch s off p hp, ?_, ?_, frame_of_eq_setPcLr heq⟩ <;> rw [heq]
  · exact relativeTarget_add_one p.2 s.pc off
  · simp only [Bool.or_eq_true]

/-- Settles O27: a branch through `lr` writes `pc` alone. -/
theorem returnBranchResult : Obligations.ReturnBranchResult := by
  intro s p hp
  have heq := returnBranch_eq p.2 s
  refine ⟨_, exec_returnBranch s p hp, ?_, by rw [heq], frame_of_eq_setPcLr heq⟩
  rw [heq]
  exact apply_ite (· + 1#32) _ _ _

/-- Settles O28: each move checks its register byte and makes one write. -/
theorem linkRegisterMoves : Obligations.LinkRegisterMoves := by
  intro s r i hr
  obtain ⟨hregs, hrest⟩ := frame_of_eq_setPcLr (s := s) (pc := s.pc) (lr := s.reg i) rfl
  exact ⟨⟨_, exec_mflr_of_names hr s, setReg_writesReg s i s.lr⟩,
    ⟨_, exec_mtlr_of_names hr s, rfl, hregs, rfl, hrest⟩⟩

/-- Settles O29: the call leaves its own index in `lr`, and the return goes one beyond it. -/
theorem returnGoesAfterCall : Obligations.ReturnGoesAfterCall := by
  intro s t u v off hs hbl hcall hu hblr hlr hreturn
  obtain ⟨s', hs', -, hlink, -, -, hsStatus, -⟩ := linkBranchResult s off _ (.head _)
  obtain ⟨u', hu', htarget, -, -, -, huStatus, -⟩ := returnBranchResult u _ (.head _)
  calc v.pc = u'.pc + 1#32 := (step_pc_lr_of_fetches hu hblr hreturn hu' huStatus).1
    _ = u.lr + 1#32 := htarget
    _ = s'.lr + 1#32 := by rw [hlr, (step_pc_lr_of_fetches hs hbl hcall hs' hsStatus).2]
    _ = s.pc + 1#32 := by rw [hlink]; rfl

end Sys2Proof.Proofs
end

-- Proofs of the rules of 44_load_store.md: what a load or a store whose bytes all lie in the data region does.
section
/-! PROOFS. A completed read is built one byte at a time, each new byte below those read before it; a completed store is
one write of its cells. -/

namespace Sys2Proof

/-- A number with one more base-256 digit below it, cut to a width, is the cut number with that byte appended. -/
theorem ofNat_mul_add_byte (w x : Nat) (b : BitVec 8) :
    BitVec.ofNat (w + 8) (x * 256 + b.toNat) = BitVec.ofNat w x ++ b := by
  refine BitVec.eq_of_toNat_eq ?_
  have hb : b.toNat < 2 ^ 8 := b.isLt
  have hlow : (x * 256 + b.toNat) % 2 ^ 8 = b.toNat := by omega
  have hhigh : (x * 256 + b.toNat) / 2 ^ 8 = x := by omega
  rw [BitVec.toNat_append, ← Nat.shiftLeft_add_eq_or_of_lt hb, Nat.shiftLeft_eq, BitVec.toNat_ofNat, BitVec.toNat_ofNat,
    pow_add, Nat.mul_comm (2 ^ w), Nat.mod_mul, hlow, hhigh, Nat.add_comm, Nat.mul_comm]

end Sys2Proof

namespace Sys2Proof.Machine

open Sys2Proof.Safety

/-- The effective address is the base plus the signed offset, modulo `2^32` (44_load_store.md R180). -/
theorem effAddr_eq_ofInt (s : State) (b : Fin 32) (off : Byte) :
    effAddr s b off = BitVec.ofInt 32 ((s.reg b).toNat + off.toInt) :=
  add_signExtend_eq_ofInt (s.reg b) off

/-! ## The value of a read -/

theorem byteAddrs_succ (ea : Word) (n : Nat) : byteAddrs ea (n + 1) = byteAddrs ea n ++ [ea + BitVec.ofNat 32 n] := by
  rw [byteAddrs, List.range_succ, List.map_append, List.map_singleton, byteAddrs]

/-- A read of no bytes always completes. -/
theorem memRead_zero (s : State) (ea : Word) : memRead s ea 0 = .ok 0#0 := rfl

/-- One byte more that passes its check goes below the bytes read so far (20_memory.md R50, R57). -/
theorem memRead_succ {s : State} {ea : Word} {n : Nat} {v : BitVec (8 * n)} (h : memRead s ea n = .ok v)
    (hlast : InData s (ea + BitVec.ofNat 32 n)) :
    memRead s ea (n + 1) = .ok (v ++ s.mem.read (ea + BitVec.ofNat 32 n).toNat) := by
  unfold memRead at h ⊢
  cases hfind : (byteAddrs ea n).find? fun a => !s.dataOk a with
  | some a => rw [hfind] at h; cases h
  | none =>
    rw [hfind] at h
    obtain rfl := Except.ok.inj h
    rw [byteAddrs_succ, List.find?_append, hfind, List.map_append, List.map_singleton, bigEndian_concat]
    simp only [List.find?_singleton, dataOk_iff_inData.mpr hlast]
    exact congrArg Except.ok (ofNat_mul_add_byte ..)

section Reads

variable {s : State} {ea : Word} (h0 : InData s ea)

include h0

theorem memRead_byte : memRead s ea 1 = .ok (s.mem.read ea.toNat) := by
  have h := memRead_succ (memRead_zero s ea) (by rwa [BitVec.add_zero])
  rw [BitVec.add_zero] at h
  exact h.trans (congrArg Except.ok (BitVec.zero_width_append ..))

variable (h1 : InData s (ea + 1))

include h1

theorem memRead_half : memRead s ea 2 = .ok (s.mem.read ea.toNat ++ s.mem.read (ea + 1).toNat) :=
  memRead_succ (memRead_byte h0) h1

theorem memRead_word (h2 : InData s (ea + 2)) (h3 : InData s (ea + 3)) :
    memRead s ea 4 =
      .ok (s.mem.read ea.toNat ++ s.mem.read (ea + 1).toNat ++ s.mem.read (ea + 2).toNat ++
        s.mem.read (ea + 3).toNat) :=
  memRead_succ (memRead_succ (memRead_half h0 h1) h2) h3

end Reads

/-! ## Loads and stores that complete -/

/-- A load whose read gives a value writes that value, extended, and nothing else (44_load_store.md R181 to R183). -/
theorem loadBytes_writesReg {n : Nat} {rd rb off : Byte} {d b : Fin 32} {s : State} (hd : Names rd d) (hb : Names rb b)
    {v : BitVec (8 * n)} (ext : BitVec (8 * n) → Word) (h : memRead s (effAddr s b off) n = .ok v) :
    ∃ t, loadBytes n ext rd rb off s = .next t ∧ WritesReg d (ext v) s t :=
  ⟨_, loadBytes_of_ok hd hb ext h, setReg_writesReg s d (ext v)⟩

/-- A completed write changes no byte but those at its addresses (20_memory.md R56). -/
theorem read_storeCells_of_ne (m : Memory) (ea v : Word) {n a : Nat}
    (ha : ∀ i < n, a ≠ (ea + BitVec.ofNat 32 i).toNat) :
    (m.writeAll (bufferCells (storeCells ea n v))).read a = m.read a := by
  refine Memory.read_writeAll_of_not_mem _ _ _ fun c hc => ?_
  obtain ⟨i, hi, rfl⟩ := mem_bufferCells_storeCells.mp hc
  exact (ha i hi).symm

/-- A store whose bytes all lie in the data region writes its cells and nothing else (44_load_store.md R184 to R186). -/
theorem storeBytes_of_inData {n : Nat} {rs rb off : Byte} {r b : Fin 32} {s : State} (hr : Names rs r) (hb : Names rb b)
    (h : ∀ i < n, InData s (effAddr s b off + BitVec.ofNat 32 i)) :
    storeBytes n rs rb off s =
      .next { s with mem := s.mem.writeAll (bufferCells (storeCells (effAddr s b off) n (s.reg r))) } :=
  (storeBytes_of_names hr hb n off s).trans (memWrite_ok _ fun i hi => dataOk_iff_inData.mpr (h i hi))

end Sys2Proof.Machine

/-! The obligations of 44_load_store.md, each read off the laws above. -/

namespace Sys2Proof.Proofs

open Sys2Proof.Machine Sys2Proof.Safety

/-- Settles O30: each width's read gives its bytes, first byte highest, and the load writes that value. -/
theorem loadResult : Obligations.LoadResult := by
  intro s rd rb off d b hd hb
  refine ⟨effAddr_eq_ofInt s b off, fun h0 => ?byte, fun h0 h1 => ?half, fun h0 h1 h2 h3 => ?word⟩
  case byte => exact loadBytes_writesReg hd hb (extend s.cfg.loadExt) (memRead_byte h0)
  case half => exact loadBytes_writesReg hd hb (extend s.cfg.loadExt) (memRead_half h0 h1)
  case word => exact loadBytes_writesReg hd hb (fun v => v) (memRead_word h0 h1 h2 h3)

/-- Settles O32: the store writes its cells, whose addresses all differ, and leaves every other byte. -/
theorem storeResult : Obligations.StoreResult := by
  intro s rs rb off r b hr hb
  refine ⟨effAddr_eq_ofInt s b off, fun p hp hin => ?_⟩
  obtain ⟨hexec, hwidth⟩ := exec_store hp s
  refine ⟨_, hexec.trans (storeBytes_of_inData hr hb hin), fun i hi => ?written,
    fun a => read_storeCells_of_ne s.mem _ (s.reg r), fun _ => rfl, rfl, rfl, rfl, rfl, rfl, rfl, rfl⟩
  case written =>
    rw [← storeByte_eq]
    exact read_storeCells s.mem _ (s.reg r) hwidth hi

end Sys2Proof.Proofs
end

-- Proofs of the rules of 45_syscall.md: the calls of the five kinds.
section
/-! PROOFS. Under different `SYSK` values the kind byte of a call selects its handler, and each handler makes one update
of the state: an event emitted, a register written, or the status set. -/

namespace Sys2Proof.Machine

open Sys2Proof.Safety

/-! ## The kind of a `SYSK` byte -/

theorem SysKind.byte_mem_all (k : SysKinds) (x : SysKind) : x.byte k ∈ k.all := by
  cases x <;> simp [SysKind.byte, SysKinds.all]

/-- Different kinds have different bytes (30_encoding.md R84). -/
theorem SysKind.byte_injective {k : SysKinds} (hk : k.all.Nodup) : Function.Injective (SysKind.byte k) := by
  have hmap : ([.print, .iprint, .fprint, .qmb, .halt].map (SysKind.byte k)).Nodup := hk
  have hall (x : SysKind) : x ∈ [SysKind.print, .iprint, .fprint, .qmb, .halt] := by cases x <;> decide
  exact fun x y hxy => List.inj_on_of_nodup_map hmap (hall x) (hall y) hxy

theorem kindOf_byte {k : SysKinds} (hk : k.all.Nodup) (x : SysKind) : kindOf k (x.byte k) = some x := by
  cases h : kindOf k (x.byte k) with
  | none => exact absurd (SysKind.byte_mem_all k x) (kindOf_eq_none_iff.mp h)
  | some y => rw [SysKind.byte_injective hk (eq_byte_of_kindOf h)]

/-- The kind of `HALT` is looked up first, so its byte is found even where another kind shares it (log 22). -/
theorem kindOf_haltByte (k : SysKinds) : kindOf k k.halt = some .halt := if_pos rfl

/-! ## The handler of each kind -/

/-- The handler that a call of each kind runs (45_syscall.md R191 to R195). -/
def SysKind.handler : SysKind → Byte → State → Result
  | .print => sysPrint
  | .iprint => sysIprint
  | .fprint => sysFprint
  | .qmb => sysQmb
  | .halt => fun _ => sysHalt

section Calls

variable {s : State} {r : Byte} {i : Fin 32}

theorem exec_syscall_of_kindOf {kind : Byte} {x : SysKind} (h : kindOf s.cfg.kinds kind = some x) (r : Byte) :
    exec (.syscall kind r) s = x.handler r s := by
  change execSyscall kind r s = _
  rw [execSyscall, h]
  cases x <;> rfl

theorem exec_syscall_byte (hk : s.cfg.kinds.all.Nodup) (x : SysKind) (r : Byte) :
    exec (.syscall (x.byte s.cfg.kinds) r) s = x.handler r s :=
  exec_syscall_of_kindOf (kindOf_byte hk x) r

theorem sysPrint_of_names (hr : Names r i) : sysPrint r s = .next (s.emit (.char ((s.reg i).extractLsb' 0 8))) := by
  rw [sysPrint, withReg_of_names hr, BitVec.setWidth_eq_extractLsb' (by decide)]

theorem sysIprint_of_names (hr : Names r i) : sysIprint r s = .next (s.emit (.int (s.reg i))) := by
  rw [sysIprint, withReg_of_names hr]

theorem sysFprint_of_names (hr : Names r i) : sysFprint r s = .next (s.emit (.float (s.reg i))) := by
  rw [sysFprint, withReg_of_names hr]

theorem sysQmb_of_names (hr : Names r i) : sysQmb r s = .next (s.setReg i (BitVec.ofNat 32 s.codeSize)) := by
  rw [sysQmb, withReg_of_names hr]

/-- The printing calls differ in the event alone (45_syscall.md R191 to R193). -/
theorem exec_printCall (hk : s.cfg.kinds.all.Nodup) (hr : Names r i) :
    ∀ p ∈ [(Instr.syscall s.cfg.kinds.print r, Event.char ((s.reg i).extractLsb' 0 8)),
        (Instr.syscall s.cfg.kinds.iprint r, Event.int (s.reg i)),
        (Instr.syscall s.cfg.kinds.fprint r, Event.float (s.reg i))],
      exec p.1 s = .next (s.emit p.2) := by
  intro p hp
  simp only [List.mem_cons, List.not_mem_nil, or_false] at hp
  obtain rfl | rfl | rfl := hp
  · exact (exec_syscall_byte hk .print r).trans (sysPrint_of_names hr)
  · exact (exec_syscall_byte hk .iprint r).trans (sysIprint_of_names hr)
  · exact (exec_syscall_byte hk .fprint r).trans (sysFprint_of_names hr)

theorem exec_qmb (hk : s.cfg.kinds.all.Nodup) (hr : Names r i) :
    exec (.syscall s.cfg.kinds.qmb r) s = .next (s.setReg i (BitVec.ofNat 32 s.codeSize)) :=
  (exec_syscall_byte hk .qmb r).trans (sysQmb_of_names hr)

/-- `HALT` reads no register byte (45_syscall.md R190, R195). -/
theorem exec_halt (s : State) (r : Byte) :
    exec (.syscall s.cfg.kinds.halt r) s = .next { s with status := .halted } :=
  exec_syscall_of_kindOf (kindOf_haltByte _) r

end Calls

/-- Emitting an event changes nothing but the history (10_state.md R41). -/
theorem emit_frame (s : State) (e : Event) :
    SameRegs s (s.emit e) ∧ (s.emit e).pc = s.pc ∧ (s.emit e).lr = s.lr ∧ (s.emit e).flags = s.flags ∧
      (s.emit e).status = s.status ∧ SameBytes s (s.emit e) ∧ SameLoad s (s.emit e) :=
  ⟨fun _ => rfl, rfl, rfl, rfl, rfl, fun _ => rfl, rfl, rfl⟩

/-- The increment follows `HALT` as it follows any call that raises no fault (30_encoding.md R95). -/
theorem step_halt {s : State} {r : Byte} (hs : s.status = .running) (hi : Fetches s (.syscall s.cfg.kinds.halt r)) :
    step s = .next { s with status := .halted, pc := s.pc + 1#32 } := by
  rw [step_of_fetches hs hi, exec_halt, advanceResult_next]
  exact congrArg _ (State.advance_of_not_faulted rfl)

end Sys2Proof.Machine

/-! The obligations of 45_syscall.md, each read off the laws above. -/

namespace Sys2Proof.Proofs

open Sys2Proof.Machine Sys2Proof.Safety

/-- Settles O38: the call sets the status alone, the increment follows, and a halted run takes no further step. -/
theorem haltResult : Obligations.HaltResult := by
  intro s r
  constructor
  · exact ⟨_, exec_halt s r, rfl, fun _ => rfl, rfl, rfl, rfl, rfl, fun _ => rfl, rfl, rfl⟩
  · intro hs hi
    exact ⟨_, step_halt hs hi, rfl, rfl, runSteps_of_not_running nofun⟩

/-- Settles O36: each printing call emits its event, which is its whole effect. -/
theorem printCallsResult : Obligations.PrintCallsResult := by
  intro s r i hk hr p hp
  exact ⟨_, exec_printCall hk hr p hp, State.emit_out s p.2, emit_frame s p.2⟩

/-- Settles O37: the call writes one register, with the length of the code region in bytes. -/
theorem queryMemoryBeginResult : Obligations.QueryMemoryBeginResult :=
  fun s _ d hk hr => ⟨_, exec_qmb hk hr, setReg_writesReg s d (BitVec.ofNat 32 s.codeSize)⟩

end Sys2Proof.Proofs
end

-- Proofs of the rules of 60_exceptions.md: what a faulting step records and leaves, and the host's stop.
section
/-! PROOFS. How a step can end on a fault, said once: what each kind of fault records, and that the state it is raised
in is the one before the step, except that a store that fails its check may have written bytes. -/

namespace Sys2Proof.Machine

open Sys2Proof.Safety

/-! ## The ways a step ends on a fault -/

/-- The three stores of a register to a base and an offset, with their widths (44_load_store.md R184 to R186). -/
abbrev storeForms (rs rb off : Byte) : List (Instr × Nat) :=
  [(.stb rs rb off, 1), (.sth rs rb off, 2), (.stw rs rb off, 4)]

/-- How a step from `s` ends on a fault, one constructor per cause, in the order of the checks (60_exceptions.md R200,
R205). -/
inductive StepFault (s : State) : ExecFault → State → Prop where
  | fetch (h : s.codeSize ≤ 4 * s.pc.toNat ∨ s.cfg.memSize ≤ 4 * s.pc.toNat) :
      StepFault s (.memoryFault (4 * s.pc.toNat) .fetch) (State.raised (.memoryFault (4 * s.pc.toNat) .fetch) s)
  | opcode (op : Byte) (h : s.cfg.opcodes.length ≤ op.toNat) :
      StepFault s (.invalidOpcode op) (State.raised (.invalidOpcode op) s)
  | kind (k : Byte) (h : k ∉ s.cfg.kinds.all) : StepFault s (.invalidSyscall k) (State.raised (.invalidSyscall k) s)
  | register (b : Byte) (h : 32 ≤ b.toNat) : StepFault s (.invalidRegister b) (State.raised (.invalidRegister b) s)
  | load (a : Word) (h : ¬ InData s a) :
      StepFault s (.memoryFault a.toNat .load) (State.raised (.memoryFault a.toNat .load) s)
  | store {i : Instr} {n : Nat} {rs rb off : Byte} {r b : Fin 32} {a : Word} (hi : Fetches s i)
      (hform : (i, n) ∈ storeForms rs rb off) (hr : Names rs r) (hb : Names rb b)
      (ha : a ∈ byteAddrs (effAddr s b off) n) (h : ¬ InData s a) :
      StepFault s (.memoryFault a.toNat .store)
        (State.raised (.memoryFault a.toNat .store) (s.partialStore (storeCells (effAddr s b off) n (s.reg r))))

theorem length_le_of_decode_error {c : Config} {w : Word} {e : DecodeError} (h : decode c w = .error e) :
    c.opcodes.length ≤ (opcodeByte w).toNat := by
  by_contra hlt
  rw [decode_of_opcode (List.getElem?_eq_getElem (Nat.lt_of_not_le hlt))] at h
  cases h

/-- Everything a store can do: report a bad register byte, or write at its effective address (44_load_store.md R180). -/
theorem storeBytes_next {n : Nat} {rs rb off : Byte} {s t : State} (h : storeBytes n rs rb off s = .next t) :
    (∃ x : Byte, 32 ≤ x.toNat ∧ t = State.raised (.invalidRegister x) s) ∨
      ∃ r b, Names rs r ∧ Names rb b ∧ memWrite (effAddr s b off) n (s.reg r) s = .next t := by
  obtain ⟨hr, h⟩ | ⟨hr, rfl⟩ := withReg_next h
  · obtain ⟨hb, h⟩ | ⟨hb, rfl⟩ := withReg_next h
    · exact .inr ⟨⟨rs.toNat, hr⟩, ⟨rb.toNat, hb⟩, rfl, rfl, h⟩
    · exact .inl ⟨rb, hb, rfl⟩
  · exact .inl ⟨rs, hr, rfl⟩

/-- A store that ends on a fault ends so by a bad register byte or at a byte outside the data region. -/
theorem stepFault_of_store {i : Instr} {n : Nat} {rs rb off : Byte} {s u : State} {f : ExecFault}
    (hs : s.status = .running) (hi : Fetches s i) (hform : (i, n) ∈ storeForms rs rb off) (h : exec i s = .next u)
    (hf : u.status = .faulted f) : StepFault s f u := by
  rw [(exec_store hform s).1] at h
  obtain ⟨x, hx, rfl⟩ | ⟨r, b, hr, hb, hw⟩ := storeBytes_next h
  · cases hf
    exact .register x hx
  · obtain ⟨-, rfl⟩ | ⟨a, ha, hbad, rfl⟩ := memWrite_next hw
    · cases hs.symm.trans hf
    · cases hf
      exact .store hi hform hr hb ha (dataOk_eq_false_iff.mp hbad)

/-- A handler that ends on a fault raised it in one of these ways. -/
theorem stepFault_of_exec {i : Instr} {s u : State} {f : ExecFault} (hs : s.status = .running) (hi : Fetches s i)
    (h : exec i s = .next u) (hf : u.status = .faulted f) : StepFault s f u := by
  have unraised (hu : u.status = s.status) : StepFault s f u := by cases hs.symm.trans (hu.symm.trans hf)
  cases exec_effect h with
  | badRegister b _ hb =>
    cases hf
    exact .register b hb
  | badKind k r _ hk =>
    cases hf
    exact .kind k (kindOf_eq_none_iff.mp hk)
  | badLoad a rd rb off _ ha =>
    cases hf
    exact .load a (dataOk_eq_false_iff.mp ha)
  | badStore a ea n v rs rb off hform => exact stepFault_of_store hs hi hform h hf
  | halted => cases hf
  | wrote => exact unraised (State.setComputed_status ..)
  | branched => exact unraised (by rw [branchRel_eq])
  | linked => exact unraised (by rw [linkBranch_eq])
  | returned => exact unraised (by rw [returnBranch_eq])
  | compared | emitted | stored | movedToLr => exact unraised rfl

/-- A step that ends on a fault ends in one of these ways. -/
theorem step_fault {s t : State} {f : ExecFault} (h : step s = .next t) (hf : t.status = .faulted f) :
    StepFault s f t := by
  obtain ⟨hs, ⟨g, hg, rfl⟩ | ⟨w, e, -, he, rfl⟩ | ⟨w, i, u, hw, hi, hu, rfl⟩⟩ := step_next h
  · cases hf
    rw [fetchWord_eq] at hg
    split at hg
    next hout =>
      cases hg
      exact .fetch hout
    next => cases hg
  · cases hf
    exact .opcode _ (length_le_of_decode_error he)
  · rw [State.advance_status] at hf
    rw [State.advance_of_faulted (by rw [hf]; rfl)]
    exact stepFault_of_exec hs ⟨w, hw, hi⟩ hu hf

/-- A byte address outside the data region is below the code's end or beyond the memory (20_memory.md R55). -/
theorem outside_of_not_inData {s : State} {a : Word} (h : ¬ InData s a) :
    a.toNat < 2 ^ 32 ∧ (a.toNat < s.codeSize ∨ s.cfg.memSize ≤ a.toNat) :=
  ⟨a.isLt, by unfold InData at h; omega⟩

/-! ## The bytes of a faulting store that passed their check -/

section Passed

variable {s : State} {i : Instr} {n : Nat} {rs rb off : Byte}

/-- A store has one width and one set of operand bytes. -/
theorem storeForms_unique {m : Nat} {rs' rb' off' : Byte} (h : (i, n) ∈ storeForms rs rb off)
    (h' : (i, m) ∈ storeForms rs' rb' off') : (rs = rs' ∧ rb = rb' ∧ off = off') ∧ n = m := by
  simp only [storeForms, List.mem_cons, Prod.mk.injEq, List.not_mem_nil, or_false] at h h'
  obtain ⟨rfl, rfl⟩ | ⟨rfl, rfl⟩ | ⟨rfl, rfl⟩ := h
  all_goals simpa [eq_comm] using h'

theorem exists_fetches_of_passedStoreByte {b : Fin 32} {j : Nat} (h : PassedStoreByte s rs rb off b n j) :
    ∃ i, Fetches s i ∧ (i, n) ∈ storeForms rs rb off := by
  obtain ⟨⟨rfl, hi⟩ | ⟨rfl, hi⟩, -⟩ := h
  · exact ⟨_, hi, by simp⟩
  · exact ⟨_, hi, by simp⟩

/-- The bytes that passed before the failing one are those of an `STH` or `STW`: an `STB` has no other byte than the one
that failed (20_memory.md R58). -/
theorem passedStoreByte_of_dataOk {b : Fin 32} {a : Word} {j : Nat} (hi : Fetches s i)
    (hform : (i, n) ∈ storeForms rs rb off) (ha : a ∈ byteAddrs (effAddr s b off) n) (hbad : ¬ InData s a) (hj : j < n)
    (hok : ∀ k ≤ j, s.dataOk (effAddr s b off + BitVec.ofNat 32 k) = true) : PassedStoreByte s rs rb off b n j := by
  have hdata : ∀ k ≤ j, InData s (effAddr s b off + BitVec.ofNat 32 k) := fun k hk => dataOk_iff_inData.mp (hok k hk)
  simp only [storeForms, List.mem_cons, Prod.mk.injEq, List.not_mem_nil, or_false] at hform
  obtain ⟨-, rfl⟩ | ⟨rfl, rfl⟩ | ⟨rfl, rfl⟩ := hform
  · obtain ⟨k, hk, rfl⟩ := mem_byteAddrs.mp ha
    exact absurd (hdata k (by omega)) hbad
  · exact ⟨.inl ⟨rfl, hi⟩, hj, hdata⟩
  · exact ⟨.inr ⟨rfl, hi⟩, hj, hdata⟩

end Passed

/-- A faulting step leaves every byte but those of a store that passed their check (60_exceptions.md R203). -/
theorem StepFault.read_of_not_passed {s t : State} {f : ExecFault} (h : StepFault s f t) {x : Nat}
    (hx : ∀ rs rb off b n j, Names rb b → PassedStoreByte s rs rb off b n j →
      x ≠ (effAddr s b off + BitVec.ofNat 32 j).toNat) : t.mem.read x = s.mem.read x := by
  cases h with
  | fetch | opcode | kind | register | load => rfl
  | store hi hform hr hb ha hbad =>
    refine partialStore_frame s _ x fun c hc => ?_
    obtain ⟨j, hj, rfl, hok⟩ := mem_takeWhile_storeCells hc
    exact (hx _ _ _ _ _ j hb (passedStoreByte_of_dataOk hi hform ha hbad hj hok)).symm

/-- A byte of a faulting store that passed its check is old or the byte the store would have written
(20_memory.md R58). -/
theorem StepFault.read_of_passed {s t : State} {f : ExecFault} (h : StepFault s f t) {rs rb off : Byte} {r b : Fin 32}
    {n j : Nat} (hr : Names rs r) (hb : Names rb b) (hp : PassedStoreByte s rs rb off b n j) :
    t.mem.read (effAddr s b off + BitVec.ofNat 32 j).toNat = s.mem.read (effAddr s b off + BitVec.ofNat 32 j).toNat ∨
      t.mem.read (effAddr s b off + BitVec.ofNat 32 j).toNat = storeByte (s.reg r) n j := by
  cases h with
  | fetch | opcode | kind | register | load => exact .inl rfl
  | store hi hform hr' hb' =>
    have ⟨_, hj, _⟩ := hp
    obtain ⟨i, hi', hform'⟩ := exists_fetches_of_passedStoreByte hp
    obtain rfl := fetches_unique hi hi'
    obtain ⟨⟨rfl, rfl, rfl⟩, rfl⟩ := storeForms_unique hform hform'
    obtain rfl := Fin.ext (hr'.symm.trans hr)
    obtain rfl := Fin.ext (hb'.symm.trans hb)
    exact partialStore_read_or s _ _ (exec_store hform s).2 hj

/-- Everything but memory is as it was, and the status records the fault (60_exceptions.md R203). -/
theorem StepFault.faultsWith {s t : State} {f : ExecFault} (h : StepFault s f t) : FaultsWith f s t := by
  cases h with
  | fetch | opcode | kind | register | load => exact raised_faultsWith _ s
  | store => exact partialStore_raised_faultsWith _ s _

/-! ## The host's stop -/

theorem hostStop_of_running {s : State} (h : s.status = .running) : s.hostStop = { s with status := .stopped } := by
  rw [State.hostStop, h]

theorem hostStop_of_not_running {s : State} (h : s.status ≠ .running) : s.hostStop = s := by
  unfold State.hostStop
  split
  next hs => exact absurd hs h
  next => rfl

end Sys2Proof.Machine

/-! The obligations of 60_exceptions.md, each read off the laws above. -/

namespace Sys2Proof.Proofs

open Sys2Proof.Machine Sys2Proof.Safety

/-- Settles O41, by the ways a step ends on a fault. -/
theorem faultsArePrecise : Obligations.FaultsArePrecise := by
  intro s t f h hf
  have hfault := step_fault h hf
  refine ⟨hfault.faultsWith, fun _ => hfault.read_of_not_passed, fun rs rb off r b n j hr hb hp => ?_⟩
  rw [← storeByte_eq]
  exact hfault.read_of_passed hr hb hp

/-- Settles O42: each way a step ends on a fault bounds what is recorded. -/
theorem faultInformation : Obligations.FaultInformation := by
  intro s t f h hf
  cases step_fault h hf with
  | fetch hout => exact ⟨rfl, by have := s.pc.isLt; omega, hout⟩
  | opcode op hop => exact hop
  | kind k hk => exact hk
  | register b hb => exact hb
  | load a ha => exact outside_of_not_inData ha
  | store _ _ _ _ _ ha => exact outside_of_not_inData ha

/-- Settles O57: the stop sets the status of a running block alone, and a stopped block has no next step. -/
theorem hostStopResult : Obligations.HostStopResult := by
  refine fun s => ⟨fun hs => ⟨hostStop_of_running hs, fun t ht => ?_⟩, hostStop_of_not_running⟩
  have hended : s.hostStop.status ≠ .running := by
    rw [hostStop_of_running hs]
    nofun
  rw [step_of_not_running hended] at ht
  cases ht

end Sys2Proof.Proofs
end

-- Proofs of the rules of 70_reset_and_hazards.md: the load of an empty image.
section
/-! PROOFS. With no image the code region is empty: every byte of memory is data, and no fetch succeeds. -/

namespace Sys2Proof.Machine

open Sys2Proof.Safety

theorem loadImage_nil (c : Config) (l : Launch) : loadImage c l [] = some (launchState c l []) :=
  (loadImage_eq c l []).trans (if_pos ⟨rfl, Nat.zero_le _⟩)

theorem inData_of_codeSize_zero {s : State} (h : s.codeSize = 0) (a : Word) : InData s a ↔ a.toNat < s.cfg.memSize :=
  and_iff_right (h ▸ Nat.zero_le _)

end Sys2Proof.Machine

/-! The obligation of 70_reset_and_hazards.md, read off the laws above. -/

namespace Sys2Proof.Proofs

open Sys2Proof.Machine Sys2Proof.Safety

/-- Settles O55: a launch state has `pc` 0, which lies outside an empty code region, so the fetch there faults. -/
theorem emptyImageFaults : Obligations.EmptyImageFaults := by
  intro c l
  have hsize : (launchState c l []).codeSize = 0 := launchState_codeSize rfl
  have hout : (launchState c l []).codeSize ≤ 4 * (launchState c l []).pc.toNat := hsize ▸ Nat.zero_le _
  obtain ⟨t, hstep, hfault, -⟩ := (fetchChecksCodeRegion (launchState c l []) rfl).1 (.inl hout)
  have ⟨_, _, hpc, _⟩ := hfault
  exact ⟨launchState c l [], t, loadImage_nil c l, hsize, inData_of_codeSize_zero hsize, hstep, hfault, hpc⟩

end Sys2Proof.Proofs
end
